-- ==== Sys2Proof/Word.lean ====
section
/-! DEFINITION. The value types of the ports and nets: unsigned values of exact width (R7), the
`BitPattern` (R28) and the `FieldTriple` (R29). They are data, not state. -/

namespace Sys2Proof

/-- `u1` (R7): a sign bit or a one-bit port. -/
abbrev U1 := BitVec 1
/-- `u2` (R7): the operation select (R65, `W_OP` of R6). -/
abbrev U2 := BitVec 2
/-- `u3` (R7): the status output (R66, `W_STATUS` of R6). -/
abbrev U3 := BitVec 3
/-- `u11` (R7): an exponent field, and the exponent difference (`W_EXP`, `W_DELTA` of R6). -/
abbrev U11 := BitVec 11
/-- `u52` (R7): a mantissa field (`W_MAN` of R6). -/
abbrev U52 := BitVec 52
/-- `u53`: a significand (R53, `W_SIG` of R6). -/
abbrev U53 := BitVec 53
/-- `u54`: the combined significand (R54, `W_SUM` of R6). -/
abbrev U54 := BitVec 54
/-- `u64` (R7): the width of a pattern (`W_PAT` of R6). -/
abbrev U64 := BitVec 64

/-- R28: the canonical binary encoding of a floating-point value. Every one of the 2^64 values is legal. -/
abbrev BitPattern := U64

/-- R29: the record of sign, biased exponent and mantissa. The widths enforce the document's "masking on
construction". Every one of the 2^64 triples is legal. A triple stands for THREE separate ports (R57). -/
@[ext] structure FieldTriple where
  sign     : U1
  exponent : U11
  mantissa : U52
  deriving DecidableEq, Repr

end Sys2Proof
end

