-- ==== Sys2Proof/Config.lean ====
section
/-! DEFINITION. The implementation parameters of R6 that are numbers (the widths stand in the types of
`Sys2Proof/Word.lean`), and the free values: what the wires carry that the spec leaves unspecified after a fault. -/

namespace Sys2Proof.Config

/-- `BIAS` (R6). -/
abbrev bias : Nat := 1023

/-- `HIDDEN` (R6): the implicit leading bit as an integer, `2^52`. -/
abbrev hidden : Nat := 4503599627370496

/-! The free values (log entry 3). R181: after `raise F()` every other output of the raising unit "may be any
value of its type, it need not be the same value on a repeat". Each is applied to the counter `State.freeIndex`.
They have no body, so no proof can know a value of one. -/

/-- `mantissa_sum` of unit `mantissa_combiner` when `borrow = 1` (R123). -/
opaque freeMantissaSum : Nat → U54
/-- `norm_man` of unit `exponent_normalizer` when `zero_sum = 1` (R136). -/
opaque freeNormMan : Nat → U52
/-- `norm_exp` of unit `exponent_normalizer` when `zero_sum = 1` (R136). -/
opaque freeNormExp : Nat → U11
/-- `exp_wrap` of unit `exponent_normalizer` when `zero_sum = 1` (R136). -/
opaque freeExpWrap : Nat → U1
/-- `y` of the top unit after a fault (R181). -/
opaque freeY : Nat → U64
/-- `y_sign` of the top unit after a fault (R181). -/
opaque freeYSign : Nat → U1
/-- `y_exp` of the top unit after a fault (R181). -/
opaque freeYExp : Nat → U11
/-- `y_man` of the top unit after a fault (R181). -/
opaque freeYMan : Nat → U52
/-- `status[2]` of the top unit after a fault (R66). -/
opaque freeStatusExpWrap : Nat → U1
/-- `status[0]` of the top unit after a `Borrow` fault (R66, R186). -/
opaque freeStatusZeroSum : Nat → U1

end Sys2Proof.Config
end

