-- ==== Sys2Proof/Syntax.lean ====
section
/-! DEFINITION. The eleven operations of R67 (one constructor per row of spec/opcode_table.json), the paths of
the block the host can evaluate (R60 to R65, R83), and a request as the host presents it: a path and the levels
of that path's select wires. No operation has an operand field: "every operand is a whole port value" (R55). -/

namespace Sys2Proof

/-- R67: the operations, in the document's order. -/
inductive Instr where
  /-- R80, unit `fp_decomposer`: pattern to fields. -/
  | decomp
  /-- R83, the reference function `val`, not hardware: fields to exact rational. -/
  | decode
  /-- R81, unit `fp_reassembler`: fields to pattern. -/
  | reasm
  /-- R82, unit `fp_decomposer`, NEGF path: fields to fields with the sign inverted. -/
  | negf
  /-- R104, unit `field_aligner`: addition steps 2 and 3. -/
  | align
  /-- R122, unit `mantissa_combiner`: addition step 4. -/
  | combine
  /-- R135, unit `exponent_normalizer`: addition steps 5 and 6. -/
  | norm
  /-- R152, top unit, `op = 0b00`. -/
  | fadd
  /-- R153, top unit, `op = 0b01`. -/
  | fsub
  /-- R154, top unit, `op = 0b10`. -/
  | fneg
  /-- R155, top unit, `op = 0b11`. -/
  | fcmpeq
  deriving DecidableEq, Repr

/-- What the host can evaluate: one of the five fixed-function units (unit `fp_decomposer` has two independent
paths, R60), the top unit (R65), or the reference function of R83, which has no unit and no port.
The host's choice of path is no bit of any encoding (R21, R68). -/
inductive EvalPath where
  | decompPath
  | negfPath
  | reassembler
  | aligner
  | combiner
  | normalizer
  | topUnit
  | reference
  deriving DecidableEq, Repr

/-- R68: the width of a path's select input: 2 for the top unit (`op`), 0 for every other path. -/
def EvalPath.selectWidth : EvalPath → Nat
  | .topUnit     => 2
  | .decompPath  => 0
  | .negfPath    => 0
  | .reassembler => 0
  | .aligner     => 0
  | .combiner    => 0
  | .normalizer  => 0
  | .reference   => 0

/-- The path that performs an operation: the column "unit" of R67. -/
def Instr.path : Instr → EvalPath
  | .decomp  => .decompPath
  | .decode  => .reference
  | .reasm   => .reassembler
  | .negf    => .negfPath
  | .align   => .aligner
  | .combine => .combiner
  | .norm    => .normalizer
  | .fadd    => .topUnit
  | .fsub    => .topUnit
  | .fneg    => .topUnit
  | .fcmpeq  => .topUnit

/-- The selection of an operation as the host presents it: a path, and the levels of that path's select wires,
wire 0 first. As raw data it may carry too few or too many wires: `Request.wellFormed` tells. -/
structure Request where
  path   : EvalPath
  select : List Bool
  deriving DecidableEq, Repr

end Sys2Proof
end

