-- ==== Sys2Proof/WellFormed.lean ====
section
/-! DEFINITION. What the syntax must satisfy: a request drives exactly the select wires its path has (R68).
An operation itself has no field, and no `op` value is reserved (R69), so there is nothing about it to check. -/

namespace Sys2Proof

/-- R68: a request carries as many select wires as its path has: two for the top unit, none otherwise. -/
def Request.wellFormed (r : Request) : Bool :=
  r.select.length == r.path.selectWidth

end Sys2Proof
end

