-- ==== Sys2Proof/Decode.lean ====
section
/-! DEFINITION. Decoding an operation selection (R67, R68), total and rejecting by name, and the encoder written
from the same table. "The decode space of each unit is its own" (R68): the path is part of what is decoded. -/

namespace Sys2Proof

/-- Why a request selects no operation. No request the hardware's ports can carry is rejected (R69):
these are requests of the wrong number of wires. -/
inductive DecodeReject where
  /-- The path is the top unit and the number of select wires is not two (R68). Safe: nothing runs. -/
  | selectNotTwoWires
  /-- The path is fixed-function and a select wire is given (R68). Safe: nothing runs. -/
  | pathHasNoSelect
  deriving DecidableEq, Repr

/-- R67: the four-row table of the top unit's `op`. It is total (R69). -/
def decodeOp (op : U2) : Instr :=
  match op.toNat with
  | 0 => .fadd
  | 1 => .fsub
  | 2 => .fneg
  | _ => .fcmpeq

/-- The operation the ports select: the path the host evaluates and, for the top unit, `op` (R21, R68). -/
def decodePorts (path : EvalPath) (op : U2) : Instr :=
  match path with
  | .decompPath  => .decomp
  | .negfPath    => .negf
  | .reassembler => .reasm
  | .aligner     => .align
  | .combiner    => .combine
  | .normalizer  => .norm
  | .topUnit     => decodeOp op
  | .reference   => .decode

/-- The `op` value on two wires, wire 0 the least significant bit (R7). -/
def opOfWires (w0 w1 : Bool) : U2 :=
  BitVec.ofBool w1 ++ BitVec.ofBool w0

/-- The two wires of an `op` value, wire 0 first (R7). -/
def wiresOfOp (op : U2) : List Bool :=
  [op.getLsbD 0, op.getLsbD 1]

/-- R68: the operation a request selects, or the name of what is wrong with it. -/
def decode (r : Request) : Except DecodeReject Instr :=
  match r.path, r.select with
  | .topUnit, [w0, w1] => .ok (decodeOp (opOfWires w0 w1))
  | .topUnit, _        => .error .selectNotTwoWires
  | path, []           => .ok (decodePorts path 0)
  | _, _ :: _          => .error .pathHasNoSelect

/-- R67: the `op` value of an operation of the top unit; the other operations have none. -/
def encodeOp : Instr → Option U2
  | .fadd    => some 0b00
  | .fsub    => some 0b01
  | .fneg    => some 0b10
  | .fcmpeq  => some 0b11
  | .decomp  => none
  | .decode  => none
  | .reasm   => none
  | .negf    => none
  | .align   => none
  | .combine => none
  | .norm    => none

/-- R67, R68: the request that selects an operation. -/
def encode (i : Instr) : Request :=
  match encodeOp i with
  | some op => ⟨i.path, wiresOfOp op⟩
  | none    => ⟨i.path, []⟩

/-- The request a word of the opcode table stands for. Only the top unit's select is a word: two bits, which the
table pads to whole bytes with zeros. A word of no bits names no path, and a bit above bit 1 has no wire
(log entry 5): there is no request then. -/
def requestOfTableWord (nbits w : Nat) : Option Request :=
  if nbits = 0 then none
  else if w < 4 then some ⟨.topUnit, [w.testBit 0, w.testBit 1]⟩
  else none

/-- The operation the decoder reads from a word numbered as spec/opcode_table.json numbers it. -/
def decodeTableWord (nbits w : Nat) : Option Instr :=
  match requestOfTableWord nbits w with
  | some r => (decode r).toOption
  | none   => none

end Sys2Proof
end

