-- ==== Sys2Proof/Machine/State.lean ====
section
/-! DEFINITION. The state of the model. The spec gives the block NO stored state (R20 to R27): what stands here
are the ports of the six units (R60 to R65) and of the reference function (R83) with the values of the CURRENT
evaluation, which fault that evaluation raised (R181), and the model's own counter of free values. -/

namespace Sys2Proof.Machine

/-- The two faults of R180. A fault is recorded in `State.fault` by the evaluation that raises it, which ANSWERS A
NEXT STATE: the fault "changes no state", "transfers no control and lasts for that evaluation only" (R181), and the
evaluation after it is an ordinary one (R189). No step of this machine stops with a fault (log entry 2). -/
inductive Fault where
  /-- R136, R182: the combined significand is 0. Raised by NORM, and through it by FADD and FSUB.
  Safe: every output the spec leaves unspecified is a free value. -/
  | zeroSum
  /-- R123, R183: an effective subtraction with `sig_l < sig_r`. Raised by COMBINE; FADD and FSUB keep the arm,
  which they never reach (R124). Safe: every output the spec leaves unspecified is a free value. -/
  | borrow
  deriving DecidableEq, Repr

/-- Why an operation is refused. -/
inductive Refusal where
  /-- The operation of this mnemonic has no meaning yet. No arm of `exec` uses it now. Safe: nothing runs. -/
  | notModelled (mnemonic : String)
  deriving DecidableEq, Repr

/-- The input ports of every unit, as the host drives them (R206), and the host's choice of what is evaluated (R21). -/
structure Inputs where
  /-- R21, R68: which path the host evaluates. Not a port: no wire of the block carries it. -/
  path        : EvalPath
  /-- R65: operation select of the top unit. -/
  op          : U2
  /-- R65: first operand pattern of the top unit. -/
  a           : BitPattern
  /-- R65: second operand pattern of the top unit, ignored by FNEG. -/
  b           : BitPattern
  /-- R60, DECOMP path: the pattern to split. -/
  pattern     : BitPattern
  /-- R60, NEGF path: `n_sign_in`, `n_exp_in`, `n_man_in`. -/
  negIn       : FieldTriple
  /-- R61: `sign`, `exponent`, `mantissa` of unit `fp_reassembler`. -/
  reasmIn     : FieldTriple
  /-- R62: `a_sign`, `a_exp`, `a_man`. -/
  alignA      : FieldTriple
  /-- R62: `b_sign`, `b_exp`, `b_man`. -/
  alignB      : FieldTriple
  /-- R63: larger operand's significand. -/
  sigL        : U53
  /-- R63: smaller operand's aligned significand. -/
  sigR        : U53
  /-- R63: 0 add, 1 subtract. -/
  effSub      : U1
  /-- R64: combined significand. -/
  mantissaSum : U54
  /-- R64: tentative result exponent. -/
  expIn       : U11
  /-- R83: the triple the reference function `val` is applied to. Not a port. -/
  decodeIn    : FieldTriple
  deriving DecidableEq, Repr

/-- R62: the output ports of unit `field_aligner`. -/
structure AlignOut where
  swap    : U1
  resSign : U1
  resExp  : U11
  effSub  : U1
  delta   : U11
  sigL    : U53
  sigR    : U53
  deriving DecidableEq, Repr

/-- R63: the output ports of unit `mantissa_combiner`. -/
structure CombineOut where
  mantissaSum : U54
  borrow      : U1
  deriving DecidableEq, Repr

/-- R64: the output ports of unit `exponent_normalizer`. -/
structure NormOut where
  normMan : U52
  normExp : U11
  zeroSum : U1
  expWrap : U1
  deriving DecidableEq, Repr

/-- R65: the output ports of the top unit. -/
structure TopOut where
  y      : BitPattern
  ySign  : U1
  yExp   : U11
  yMan   : U52
  status : U3
  deriving DecidableEq, Repr

/-- The output ports of the path evaluated, with what that evaluation drives on them. The block remembers no
earlier evaluation (R20, R27), so there is one such record and it is the current evaluation's. -/
inductive Outputs where
  /-- R60, DECOMP path: `sign`, `exponent`, `mantissa`. -/
  | decomp (f : FieldTriple)
  /-- R60, NEGF path: `n_sign_out`, `n_exp_out`, `n_man_out`. -/
  | negf (f : FieldTriple)
  /-- R61: `pattern`. -/
  | reasm (pattern : BitPattern)
  /-- R62. -/
  | align (o : AlignOut)
  /-- R63. -/
  | combine (o : CombineOut)
  /-- R64. -/
  | norm (o : NormOut)
  /-- R65. -/
  | top (o : TopOut)
  /-- R83: the exact rational of the reference function. Not a port. -/
  | decode (val : Rat)
  deriving DecidableEq, Repr

/-- The whole state: plain data. -/
structure State where
  /-- The input ports (R60 to R65) and the host's choice of path (R21). No operation writes them. -/
  inp       : Inputs
  /-- The output ports of the current evaluation (R60 to R65). -/
  out       : Outputs
  /-- The fault this evaluation raised (R181), `none` where it has a result. -/
  fault     : Option Fault
  /-- The MODEL's own counter, not the spec's: the index of the next free value (log entry 3). -/
  freeIndex : Nat
  deriving DecidableEq, Repr

/-- Every input wire at 0 and the top unit's path selected (log entry 4: the spec gives inputs no reset value). -/
def Inputs.zero : Inputs where
  path        := .topUnit
  op          := 0
  a           := 0
  b           := 0
  pattern     := 0
  negIn       := ⟨0, 0, 0⟩
  reasmIn     := ⟨0, 0, 0⟩
  alignA      := ⟨0, 0, 0⟩
  alignB      := ⟨0, 0, 0⟩
  sigL        := 0
  sigR        := 0
  effSub      := 0
  mantissaSum := 0
  expIn       := 0
  decodeIn    := ⟨0, 0, 0⟩

/-- The block after power-up. It has no reset input and no reset value (R32, R200): the inputs are the model's choice
(log entry 4), and the outputs are "the function of the current inputs" (R32), here FADD of the zero pattern and
itself, which gives `0x0010000000000000` (R152). -/
def State.reset : State where
  inp       := Inputs.zero
  out       := .top ⟨0x0010000000000000, 0, 1, 0, 0⟩
  fault     := none
  freeIndex := 0

end Sys2Proof.Machine
end

