-- ==== Sys2Proof/Machine/Operands.lean ====
section
/-! DEFINITION. Operand assembly (R55): slicing a pattern into fields and joining them (R50, R51), the sign inversion
FSUB applies to its second operand, the implicit leading bit (R53), and the number a triple stands for (R83). -/

namespace Sys2Proof.Machine

/-- `mask_N` of R8: an integer, negative allowed, reduced modulo `2^N`. -/
def maskN (n : Nat) (x : Int) : BitVec n :=
  BitVec.ofInt n x

/-- R29: the constructor that masks, for integers of any size (R81: over-wide fields are masked before REASM). -/
def mkFields (s e m : Int) : FieldTriple :=
  ⟨maskN 1 s, maskN 11 e, maskN 52 m⟩

/-- R80: `pattern[63]`, `pattern[62:52]`, `pattern[51:0]`. -/
def decompose (p : BitPattern) : FieldTriple :=
  ⟨p.extractLsb' 63 1, p.extractLsb' 52 11, p.extractLsb' 0 52⟩

/-- R81: the concatenation of sign, exponent and mantissa. -/
def reassemble (f : FieldTriple) : BitPattern :=
  f.sign ++ f.exponent ++ f.mantissa

/-- R82: the sign inverted, the other fields untouched. -/
def negate (f : FieldTriple) : FieldTriple :=
  ⟨f.sign ^^^ 1, f.exponent, f.mantissa⟩

/-- R53: a mantissa with the implicit leading bit at bit 52, `{1, m}`. -/
def significand (m : U52) : U53 :=
  1#1 ++ m

/-- R83: the exact rational a field triple stands for, whatever its exponent (R10). -/
def val (f : FieldTriple) : Rat :=
  (-1) ^ f.sign.toNat * 2 ^ ((f.exponent.toNat : Int) - (Config.bias : Int))
    * (1 + (f.mantissa.toNat : Rat) / (Config.hidden : Rat))

/-- R155: a truth value widened to 64 bits. -/
def truthPattern (c : Bool) : BitPattern :=
  (BitVec.ofBool c).setWidth 64

end Sys2Proof.Machine
end

