-- ==== Sys2Proof/Machine/Flags.lean ====
section
/-! DEFINITION. Every flag the block computes: `swap` and `eff_sub` (R101, R102), `exp_wrap` (R137), the three bits
of `status` (R66, R156), and what the top unit's outputs carry after a fault (R181, R186). -/

namespace Sys2Proof.Machine

/-- R101: `B` is the larger in magnitude. On a full tie there is no swap, and the signs take no part. -/
def swapNeeded (A B : FieldTriple) : Bool :=
  decide (A.exponent.toNat < B.exponent.toNat)
    || (decide (B.exponent = A.exponent) && decide (A.mantissa.toNat < B.mantissa.toNat))

/-- R102: 1 when the signs of the two operands differ. -/
def effSubOf (L R : FieldTriple) : U1 :=
  L.sign ^^^ R.sign

/-- R137: the unmasked result exponent left 0 to 2047. -/
def expWrapOf (e : Int) : U1 :=
  BitVec.ofBool (decide (e < 0) || decide (2047 < e))

/-- R66: `{exp_wrap, borrow, zero_sum}`. -/
def statusOf (expWrap borrow zeroSum : U1) : U3 :=
  expWrap ++ borrow ++ zeroSum

/-- R66, R156, R186: `status` of the top unit after a fault. `Borrow` makes `status[0]` and `status[2]` unspecified;
`ZeroSum` makes `status[2]` unspecified and leaves `status[1]` at 0. -/
def statusAfterFault (f : Fault) (n : Nat) : U3 :=
  match f with
  | .zeroSum => statusOf (Config.freeStatusExpWrap n) 0 1
  | .borrow  => statusOf (Config.freeStatusExpWrap n) 1 (Config.freeStatusZeroSum n)

/-- R150: the outputs of the top unit for a result pattern: the third DECOMP path drives `y_sign`, `y_exp`, `y_man`. -/
def topResult (y : BitPattern) (status : U3) : TopOut :=
  let f := decompose y
  ⟨y, f.sign, f.exponent, f.mantissa, status⟩

/-- R181: the outputs of the top unit after a fault: unspecified, but for the status bits of R66. -/
def topAfterFault (f : Fault) (n : Nat) : TopOut :=
  ⟨Config.freeY n, Config.freeYSign n, Config.freeYExp n, Config.freeYMan n, statusAfterFault f n⟩

end Sys2Proof.Machine
end

