-- ==== Sys2Proof/Machine/Ops.lean ====
section
/-! DEFINITION. The operations the meanings share: the three stages of the addition (R104, R122, R135) and their
composition (R150), driving the outputs, raising a fault (R181; there is no trap, R188), the host's side of the
ports (R206), and which operation the ports select (R21, R68). -/

namespace Sys2Proof.Machine

/-- `shr` of R8: the logical right shift for ANY amount, never reduced modulo a word size (R105). -/
def shr {w : Nat} (v : BitVec w) (n : Nat) : BitVec w :=
  v >>> n

/-- `msb` of R8: the index of the highest set bit of a positive value. -/
def msb (v : Nat) : Nat :=
  v.log2

/-- R104: ALIGN. Total, no fault. -/
def align (A B : FieldTriple) : AlignOut :=
  let swap := swapNeeded A B
  let L := if swap then B else A
  let R := if swap then A else B
  let delta := L.exponent - R.exponent
  { swap    := BitVec.ofBool swap
    resSign := L.sign
    resExp  := L.exponent
    effSub  := effSubOf L R
    delta   := delta
    sigL    := significand L.mantissa
    sigR    := shr (significand R.mantissa) delta.toNat }

/-- R122: COMBINE. The difference is taken only when it is not negative; the wrapped value is not reproduced (R123). -/
def combine (sigL sigR : U53) (effSub : U1) : Except Fault CombineOut :=
  if effSub = 0 then .ok ⟨BitVec.ofNat 54 (sigL.toNat + sigR.toNat), 0⟩
  else if sigR.toNat ≤ sigL.toNat then .ok ⟨BitVec.ofNat 54 (sigL.toNat - sigR.toNat), 0⟩
  else .error .borrow

/-- R135: the outputs of NORM for a normalised significand `s2` and the exponent as an integer: the leading bit
stripped (R138), the exponent masked once (R134), the flag of R137. -/
def normOut (s2 : Nat) (e : Int) : NormOut :=
  ⟨BitVec.ofNat 52 (s2 - Config.hidden), maskN 11 e, 0, expWrapOf e⟩

/-- R135: NORM. -/
def normalizeSig (sum : U54) (expIn : U11) : Except Fault NormOut :=
  let s := sum.toNat
  let e : Int := expIn.toNat
  if s = 0 then .error .zeroSum
  else if 2 * Config.hidden ≤ s then .ok (normOut (s / 2) (e + 1))
  else if s < Config.hidden then
    let k := 52 - msb s
    .ok (normOut (s * 2 ^ k) (e - k))
  else .ok (normOut s e)

/-- What an addition without a fault computes: the result's fields, and `exp_wrap`. -/
abbrev SumResult := FieldTriple × U1

/-- R150, R152 steps 2 to 6: ALIGN, COMBINE and NORM wired one after another. A fault of a stage is a fault of the
addition, the combiner's first (R186). -/
def addFields (A B : FieldTriple) : Except Fault SumResult :=
  let al := align A B
  match combine al.sigL al.sigR al.effSub with
  | .error f => .error f
  | .ok c =>
    match normalizeSig c.mantissaSum al.resExp with
    | .error f => .error f
    | .ok n => .ok (⟨al.resSign, n.normExp, n.normMan⟩, n.expWrap)

/-- An evaluation with a result drives its outputs. Inputs are not touched (R43). -/
def State.drive (s : State) (o : Outputs) : State :=
  { s with out := o, fault := none }

/-- R181, `raise F()`: the one shared operation of taking a fault. It records the fault of THIS evaluation, drives the
given outputs (the status bit, and free values for what is unspecified) and moves on to the next free value.
It saves nothing and sends control nowhere (R188), and there is nothing to return from (R189). -/
def State.raise (s : State) (f : Fault) (o : Outputs) : State :=
  { s with out := o, fault := some f, freeIndex := s.freeIndex + 1 }

/-- R151 step 7, R152: the top unit's outputs for the outcome of an addition. -/
def State.driveSum (s : State) (r : Except Fault SumResult) : State :=
  match r with
  | .ok (f, expWrap) => s.drive (.top (topResult (reassemble f) (statusOf expWrap 0 0)))
  | .error f => s.raise f (.top (topAfterFault f s.freeIndex))

/-! The host's side of the ports (R206): it drives the inputs of one path and evaluates that path. All inputs of an
evaluation belong together (R43, R65). -/

/-- The host drives `op`, `a` and `b` of the top unit (R65). -/
def State.driveTop (s : State) (op : U2) (a b : BitPattern) : State :=
  { s with inp := { s.inp with path := .topUnit, op := op, a := a, b := b } }

/-- The host drives the DECOMP path (R60). -/
def State.driveDecomp (s : State) (pattern : BitPattern) : State :=
  { s with inp := { s.inp with path := .decompPath, pattern := pattern } }

/-- The host drives the NEGF path (R60). -/
def State.driveNegf (s : State) (f : FieldTriple) : State :=
  { s with inp := { s.inp with path := .negfPath, negIn := f } }

/-- The host drives unit `fp_reassembler` (R61). -/
def State.driveReasm (s : State) (f : FieldTriple) : State :=
  { s with inp := { s.inp with path := .reassembler, reasmIn := f } }

/-- The host drives unit `field_aligner` (R62). -/
def State.driveAlign (s : State) (A B : FieldTriple) : State :=
  { s with inp := { s.inp with path := .aligner, alignA := A, alignB := B } }

/-- The host drives unit `mantissa_combiner` (R63). -/
def State.driveCombine (s : State) (sigL sigR : U53) (effSub : U1) : State :=
  { s with inp := { s.inp with path := .combiner, sigL := sigL, sigR := sigR, effSub := effSub } }

/-- The host drives unit `exponent_normalizer` (R64). -/
def State.driveNorm (s : State) (sum : U54) (expIn : U11) : State :=
  { s with inp := { s.inp with path := .normalizer, mantissaSum := sum, expIn := expIn } }

/-- A reader asks for the reference value of a triple (R83). -/
def State.driveDecode (s : State) (f : FieldTriple) : State :=
  { s with inp := { s.inp with path := .reference, decodeIn := f } }

/-- The request on the ports: the path evaluated and, for the top unit, the two wires of `op` (R68). -/
def State.request (s : State) : Request :=
  match s.inp.path with
  | .topUnit => ⟨.topUnit, wiresOfOp s.inp.op⟩
  | path     => ⟨path, []⟩

/-- The operation the ports select. It is defined for every state (R69). -/
def State.selected (s : State) : Instr :=
  decodePorts s.inp.path s.inp.op

/-- The host presents a request: it selects the path and, for the top unit, drives the two wires of `op`. -/
def State.present (s : State) (r : Request) : State :=
  match r.path, r.select with
  | .topUnit, [w0, w1] => { s with inp := { s.inp with path := .topUnit, op := opOfWires w0 w1 } }
  | path, _            => { s with inp := { s.inp with path := path } }

end Sys2Proof.Machine
end

