-- ==== Sys2Proof/Machine/AdderSubtractor.lean ====
section
/-! DEFINITION. The four operations of the top unit `fp_adder_subtractor_manual` (R152 to R155). -/

namespace Sys2Proof.Machine

/-- R152: FADD. -/
def execFadd (s : State) : Host.Outcome State Fault Refusal :=
  .next (s.driveSum (addFields (decompose s.inp.a) (decompose s.inp.b)))

/-- R153: FSUB, FADD with the sign of `b` inverted. -/
def execFsub (s : State) : Host.Outcome State Fault Refusal :=
  .next (s.driveSum (addFields (decompose s.inp.a) (negate (decompose s.inp.b))))

/-- R154: FNEG, bit 63 inverted. `b` is ignored. -/
def execFneg (s : State) : Host.Outcome State Fault Refusal :=
  .next (s.drive (.top (topResult (s.inp.a ^^^ 0x8000000000000000#64) 0)))

/-- R155: FCMPEQ, bit for bit; the truth value in `y[0]`. -/
def execFcmpeq (s : State) : Host.Outcome State Fault Refusal :=
  .next (s.drive (.top (topResult (truthPattern (decide (s.inp.a = s.inp.b))) 0)))

end Sys2Proof.Machine
end

