-- ==== Sys2Proof/Machine/AdditionStages.lean ====
section
/-! DEFINITION. The operations of the three inner units of the addition, ALIGN, COMBINE and NORM, each driven on its
own ports, and the normalisation loops as the document states them (R131), which NORM is the closed form of. -/

namespace Sys2Proof.Machine

/-- R104: ALIGN, unit `field_aligner`. -/
def execAlign (s : State) : Host.Outcome State Fault Refusal :=
  .next (s.drive (.align (align s.inp.alignA s.inp.alignB)))

/-- R122, R123: COMBINE, unit `mantissa_combiner`. After `Borrow`, `borrow` is 1 and `mantissa_sum` unspecified. -/
def execCombine (s : State) : Host.Outcome State Fault Refusal :=
  match combine s.inp.sigL s.inp.sigR s.inp.effSub with
  | .ok o    => .next (s.drive (.combine o))
  | .error f => .next (s.raise f (.combine ⟨Config.freeMantissaSum s.freeIndex, 1⟩))

/-- R135, R136: NORM, unit `exponent_normalizer`. After `ZeroSum`, `zero_sum` is 1 and the rest unspecified. -/
def execNorm (s : State) : Host.Outcome State Fault Refusal :=
  match normalizeSig s.inp.mantissaSum s.inp.expIn with
  | .ok o    => .next (s.drive (.norm o))
  | .error f =>
    .next (s.raise f (.norm ⟨Config.freeNormMan s.freeIndex, Config.freeNormExp s.freeIndex, 1,
      Config.freeExpWrap s.freeIndex⟩))

/-- R131, first loop: "while `mantissa_sum ≥ 2^53`, right-shift by 1 and increment result exponent", at most `fuel`
turns. -/
def rightShiftLoop : Nat → Nat × Int → Nat × Int
  | 0, p            => p
  | fuel + 1, (s, e) => if 2 ^ 53 ≤ s then rightShiftLoop fuel (s / 2, e + 1) else (s, e)

/-- R131, second loop: "while `mantissa_sum < 2^52`, left-shift by 1 and decrement result exponent", at most `fuel`
turns. -/
def leftShiftLoop : Nat → Nat × Int → Nat × Int
  | 0, p            => p
  | fuel + 1, (s, e) => if s < 2 ^ 52 then leftShiftLoop fuel (s * 2, e - 1) else (s, e)

end Sys2Proof.Machine
end

