-- ==== Sys2Proof/Machine/FieldDecomposer.lean ====
section
/-! DEFINITION. The operations of the document's Field Decomposer: DECOMP, REASM and NEGF (units `fp_decomposer` and
`fp_reassembler`) and the reference function DECODE. None of them faults (R180). -/

namespace Sys2Proof.Machine

/-- R80: DECOMP. -/
def execDecomp (s : State) : Host.Outcome State Fault Refusal :=
  .next (s.drive (.decomp (decompose s.inp.pattern)))

/-- R81: REASM. -/
def execReasm (s : State) : Host.Outcome State Fault Refusal :=
  .next (s.drive (.reasm (reassemble s.inp.reasmIn)))

/-- R82: NEGF. -/
def execNegf (s : State) : Host.Outcome State Fault Refusal :=
  .next (s.drive (.negf (negate s.inp.negIn)))

/-- R83: DECODE, the exact reference function. -/
def execDecode (s : State) : Host.Outcome State Fault Refusal :=
  .next (s.drive (.decode (val s.inp.decodeIn)))

/-- R83: the mantissa factor as the document writes it, the sum of `bit_i × 2^(i−52)` over the first `n` bits. -/
def mantissaBitSum (m : U52) : Nat → Rat
  | 0     => 0
  | i + 1 => mantissaBitSum m i + (m.getLsbD i).toNat * 2 ^ ((i : Int) - 52)

end Sys2Proof.Machine
end

