-- ==== Sys2Proof/Machine/Dispatch.lean ====
section
/-! DEFINITION. One arm per operation of R67, each one direct call of its meaning. -/

namespace Sys2Proof.Machine

def exec (i : Instr) (s : State) : Host.Outcome State Fault Refusal :=
  match i with
  | .decomp => Sys2Proof.Machine.execDecomp s
  | .decode => Sys2Proof.Machine.execDecode s
  | .reasm => Sys2Proof.Machine.execReasm s
  | .negf => Sys2Proof.Machine.execNegf s
  | .align => Sys2Proof.Machine.execAlign s
  | .combine => Sys2Proof.Machine.execCombine s
  | .norm => Sys2Proof.Machine.execNorm s
  | .fadd => Sys2Proof.Machine.execFadd s
  | .fsub => Sys2Proof.Machine.execFsub s
  | .fneg => Sys2Proof.Machine.execFneg s
  | .fcmpeq => Sys2Proof.Machine.execFcmpeq s

end Sys2Proof.Machine
end

