-- ==== Sys2Proof/Machine/Step.lean ====
section
/-! DEFINITION. One step is one evaluation: the operation the ports select is applied to the values on the ports (R9,
R20). There is no program counter and nothing advances (R21): the host drives other inputs between steps. -/

namespace Sys2Proof.Machine

/-- R20: "a step is the application of one operation's function". -/
def step (s : State) : Host.Outcome State Fault Refusal :=
  exec s.selected s

/-- The state with the request a word of the opcode table stands for on its ports (log entry 5): the top unit's path
selected and `op` driven. A word that is no request changes nothing. The operands stay as they are. -/
def State.withFetchWord (s : State) (nbits w : Nat) : State :=
  match requestOfTableWord nbits w with
  | some r => s.present r
  | none   => s

end Sys2Proof.Machine
end

