-- ==== Sys2Proof/Safety.lean ====
section
/-! DEFINITION. The terms claims are stated in: the outcome of an evaluation (R181), the caller's obligations of
spec/70_reset_and_hazards.md as predicates, and the invariant of the outputs that every evaluation keeps. -/

namespace Sys2Proof.Machine

/-- R181: the outcome of the evaluation a state holds: its outputs, or the fault INSTEAD of outputs, "never a pattern".
A claim about a result is a claim about `.ok`. -/
def State.result (s : State) : Except Fault Outputs :=
  match s.fault with
  | none   => .ok s.out
  | some f => .error f

/-- The triple on the ports `y_sign`, `y_exp`, `y_man` (R65). -/
def TopOut.fields (o : TopOut) : FieldTriple :=
  ⟨o.ySign, o.yExp, o.yMan⟩

/-- `p[62:0]` as a number (R51): the exponent and mantissa fields, ordered by magnitude. -/
def magnitude (p : BitPattern) : Nat :=
  p.toNat % 2 ^ 63

/-- R11, R203: a normalised pattern, exponent field 1 to 2046. No rule of the block tests for it. -/
abbrev normalised (p : BitPattern) : Prop :=
  1 ≤ (decompose p).exponent.toNat ∧ (decompose p).exponent.toNat ≤ 2046

/-- R182: the operands of an effective addition that cancels: equal low 63 bits, opposite signs. -/
abbrev cancels (a b : BitPattern) : Prop :=
  magnitude a = magnitude b ∧ a.getLsbD 63 ≠ b.getLsbD 63

/-- The larger, and the smaller, of the two operands' absolute values (R101 orders by magnitude). -/
def largerAbs (A B : FieldTriple) : Rat := max |val A| |val B|
/-- See `largerAbs`. -/
def smallerAbs (A B : FieldTriple) : Rat := min |val A| |val B|

/-- R159: the unit in the last place of the larger-magnitude operand, `2^(res_exp − 1075)`. -/
def ulpOf (A B : FieldTriple) : Rat :=
  2 ^ (((max A.exponent.toNat B.exponent.toNat : Nat) : Int) - 1075)

/-- What the outputs of an evaluation always satisfy: with a result, the ALIGN ordering (R106) and clamp (R105), no
fault bit (R122, R135, R156), the composite consistent (R162), the reference value in its range (R83); after a fault,
the fault is one the evaluated unit raises and its bit is 1 (R180), and the top unit's is `ZeroSum` (R124, R182). -/
def OutputsLegal (s : State) : Prop :=
  match s.fault, s.out with
  | none, .decomp _        => True
  | none, .negf _          => True
  | none, .reasm _         => True
  | none, .align o         =>
      o.sigR.toNat ≤ o.sigL.toNat ∧ 2 ^ 52 ≤ o.sigL.toNat ∧ (53 ≤ o.delta.toNat → o.sigR = 0)
        ∧ o.delta.toNat ≤ o.resExp.toNat
  | none, .combine o       => o.borrow = 0
  | none, .norm o          => o.zeroSum = 0
  | none, .top o           =>
      o.fields = decompose o.y ∧ o.status.getLsbD 0 = false ∧ o.status.getLsbD 1 = false
  | none, .decode v        => (2 : Rat) ^ (-1023 : Int) ≤ |v| ∧ |v| < (2 : Rat) ^ (1025 : Int)
  | some .zeroSum, .norm o => o.zeroSum = 1
  | some .zeroSum, .top o  => o.status.getLsbD 0 = true ∧ o.status.getLsbD 1 = false
  | some .borrow, .combine o => o.borrow = 1
  | some _, _              => False

/-- The operands an operation reads: two input records agree on them. `b` is no operand of FNEG (R154). -/
def sameOperands (i : Instr) (x x' : Inputs) : Prop :=
  match i with
  | .decomp  => x.pattern = x'.pattern
  | .decode  => x.decodeIn = x'.decodeIn
  | .reasm   => x.reasmIn = x'.reasmIn
  | .negf    => x.negIn = x'.negIn
  | .align   => x.alignA = x'.alignA ∧ x.alignB = x'.alignB
  | .combine => x.sigL = x'.sigL ∧ x.sigR = x'.sigR ∧ x.effSub = x'.effSub
  | .norm    => x.mantissaSum = x'.mantissaSum ∧ x.expIn = x'.expIn
  | .fadd    => x.a = x'.a ∧ x.b = x'.b
  | .fsub    => x.a = x'.a ∧ x.b = x'.b
  | .fneg    => x.a = x'.a
  | .fcmpeq  => x.a = x'.a ∧ x.b = x'.b

/-! An addition in the rules' own integers, apart from the functions the meanings call. -/

/-- The exponent and mantissa fields of a triple as one number, `p[62:0]` of its pattern (R51). -/
def rankOf (f : FieldTriple) : Nat :=
  f.exponent.toNat * 2 ^ 52 + f.mantissa.toNat

/-- R101: `L` is the operand of larger magnitude, `A` on a full tie, and `R` the other. -/
def Ordered (A B L R : FieldTriple) : Prop :=
  if rankOf A < rankOf B then L = B ∧ R = A else L = A ∧ R = B

/-- R103: the smaller operand's significand after the alignment shift. -/
def alignedSig (L R : FieldTriple) : Nat :=
  (R.mantissa.toNat + 2 ^ 52) / 2 ^ (L.exponent.toNat - R.exponent.toNat)

/-- R121: the combined significand of ordered operands. -/
def combinedSig (L R : FieldTriple) : Nat :=
  if L.sign = R.sign then (L.mantissa.toNat + 2 ^ 52) + alignedSig L R
  else (L.mantissa.toNat + 2 ^ 52) - alignedSig L R

/-- `c` of R132: the number of right shifts. -/
def rightShifts (m : Nat) : Nat :=
  if 2 ^ 53 ≤ m then 1 else 0

/-- `k` of R133: the number of left shifts of a non-zero significand. -/
def leftShifts (m : Nat) : Nat :=
  if m < 2 ^ 52 then 52 - Nat.log2 m else 0

/-- R134: the unmasked result exponent. -/
def resultExp (e m : Nat) : Int :=
  (e : Int) + rightShifts m - leftShifts m

/-- R152: the result pattern and status of adding `A` and `B` when the combined significand is not 0. -/
def AdditionResult (A B : FieldTriple) (y : BitPattern) (status : U3) : Prop :=
  ∃ L R, Ordered A B L R ∧ combinedSig L R ≠ 0
    ∧ (y.toNat : Int) = L.sign.toNat * 2 ^ 63
        + resultExp L.exponent.toNat (combinedSig L R) % 2 ^ 11 * 2 ^ 52
        + (((combinedSig L R / 2 ^ rightShifts (combinedSig L R) * 2 ^ leftShifts (combinedSig L R) : Nat) : Int)
            - 2 ^ 52)
    ∧ status.getLsbD 0 = false ∧ status.getLsbD 1 = false
    ∧ (status.getLsbD 2 = true ↔
        resultExp L.exponent.toNat (combinedSig L R) < 0 ∨ 2047 < resultExp L.exponent.toNat (combinedSig L R))

end Sys2Proof.Machine
end

