-- ==== Sys2Proof/Certificates/Slice0/Obligations.lean ====
section
/-! DEFINITION. The statements for the provers. Each docstring names the rule of spec/ it formalises. A record
update `{ s with out := …, fault := none }` in a conclusion says the frame as well: the inputs, and every other
field of the state, are as before. -/

open Sys2Proof Sys2Proof.Machine

/-! Selecting an operation -/

/-- R67, R68: the select word of each operation, written out, and the path of each fixed-function operation. -/
def Obligations.OperationTableWordsDecode : Prop :=
  decode ⟨.topUnit, [false, false]⟩ = .ok .fadd ∧ decode ⟨.topUnit, [true, false]⟩ = .ok .fsub
  ∧ decode ⟨.topUnit, [false, true]⟩ = .ok .fneg ∧ decode ⟨.topUnit, [true, true]⟩ = .ok .fcmpeq
  ∧ decode ⟨.decompPath, []⟩ = .ok .decomp ∧ decode ⟨.reference, []⟩ = .ok .decode
  ∧ decode ⟨.reassembler, []⟩ = .ok .reasm ∧ decode ⟨.negfPath, []⟩ = .ok .negf
  ∧ decode ⟨.aligner, []⟩ = .ok .align ∧ decode ⟨.combiner, []⟩ = .ok .combine
  ∧ decode ⟨.normalizer, []⟩ = .ok .norm

/-- R68, R69: decoding and encoding agree both ways, and the requests that decode are exactly the well-formed ones:
no `op` value is illegal or reserved, and a request of the wrong number of wires is rejected. -/
def Obligations.DecodeEncodeAgree : Prop :=
  (∀ i : Instr, (encode i).wellFormed = true ∧ decode (encode i) = .ok i)
  ∧ (∀ (r : Request) (i : Instr), decode r = .ok i ↔ r = encode i)
  ∧ (∀ r : Request, r.wellFormed = true ↔ ∃ i, decode r = .ok i)

/-- R21, R65: the request on the ports of any state decodes, and a step is the decoded operation applied to that
state. Nothing is added around it: there is no program counter to advance. -/
def Obligations.StepRunsTheDecodedOperation : Prop :=
  (∀ s : State, ∃ i, decode s.request = .ok i)
  ∧ (∀ (s : State) (i : Instr), decode s.request = .ok i → step s = exec i s)

/-- Log entry 5: a word of the opcode table that decodes is what the very next step runs, and only the selection of
the operation has changed. -/
def Obligations.StoredTableWordRunsNext : Prop :=
  ∀ (s : State) (nbits w : Nat) (i : Instr), decodeTableWord nbits w = some i →
    step (s.withFetchWord nbits w) = exec i (s.withFetchWord nbits w)
    ∧ s.withFetchWord nbits w =
        { s with inp := { s.inp with path := .topUnit, op := BitVec.ofNat 2 w } }

/-! The field operations -/

/-- R80, with the slices as numbers (R7, R51): DECOMP. -/
def Obligations.DecompSplitsThePattern : Prop :=
  ∀ s : State, ∃ f : FieldTriple,
    exec .decomp s = .next { s with out := .decomp f, fault := none }
    ∧ f.sign.toNat = s.inp.pattern.toNat / 2 ^ 63
    ∧ f.exponent.toNat = s.inp.pattern.toNat / 2 ^ 52 % 2 ^ 11
    ∧ f.mantissa.toNat = s.inp.pattern.toNat % 2 ^ 52

/-- R81: REASM. -/
def Obligations.ReasmJoinsTheFields : Prop :=
  ∀ s : State, ∃ p : BitPattern,
    exec .reasm s = .next { s with out := .reasm p, fault := none }
    ∧ p.toNat = s.inp.reasmIn.sign.toNat * 2 ^ 63 + s.inp.reasmIn.exponent.toNat * 2 ^ 52
        + s.inp.reasmIn.mantissa.toNat

/-- R82: NEGF. -/
def Obligations.NegfInvertsOnlyTheSign : Prop :=
  ∀ s : State, ∃ f : FieldTriple,
    exec .negf s = .next { s with out := .negf f, fault := none }
    ∧ f.sign.toNat = 1 - s.inp.negIn.sign.toNat
    ∧ f.exponent = s.inp.negIn.exponent ∧ f.mantissa = s.inp.negIn.mantissa

/-- R83: DECODE gives the exact rational; the document's sum over the mantissa bits is `mantissa / 2^52`; the value is
never 0 and never infinite. -/
def Obligations.DecodeGivesTheExactValue : Prop :=
  ∀ s : State, ∃ v : Rat,
    exec .decode s = .next { s with out := .decode v, fault := none }
    ∧ v = (-1) ^ s.inp.decodeIn.sign.toNat * 2 ^ ((s.inp.decodeIn.exponent.toNat : Int) - 1023)
        * (1 + (s.inp.decodeIn.mantissa.toNat : Rat) / 2 ^ (52 : Nat))
    ∧ mantissaBitSum s.inp.decodeIn.mantissa 52 = (s.inp.decodeIn.mantissa.toNat : Rat) / 2 ^ (52 : Nat)
    ∧ (2 : Rat) ^ (-1023 : Int) ≤ |v| ∧ |v| < (2 : Rat) ^ (1025 : Int)

/-- R85: the round trip on patterns and on triples, run through the operations. -/
def Obligations.FieldRoundTripsBothWays : Prop :=
  (∀ (s : State) (p : BitPattern), ∃ (t u : State) (f : FieldTriple),
    exec .decomp (s.driveDecomp p) = .next t ∧ t.out = .decomp f
    ∧ exec .reasm (t.driveReasm f) = .next u ∧ u.out = .reasm p)
  ∧ (∀ (s : State) (f : FieldTriple), ∃ (t u : State) (p : BitPattern),
    exec .reasm (s.driveReasm f) = .next t ∧ t.out = .reasm p
    ∧ exec .decomp (t.driveDecomp p) = .next u ∧ u.out = .decomp f)

/-- R86: NEGF is an involution that inverts the value, and on a pattern it inverts bit 63, as FNEG does. -/
def Obligations.NegationLaws : Prop :=
  (∀ (s : State) (f : FieldTriple), ∃ (t u : State) (g : FieldTriple),
    exec .negf (s.driveNegf f) = .next t ∧ t.out = .negf g
    ∧ exec .negf (t.driveNegf g) = .next u ∧ u.out = .negf f
    ∧ g.sign ≠ f.sign ∧ g.exponent = f.exponent ∧ g.mantissa = f.mantissa ∧ val g = -val f)
  ∧ (∀ (s : State) (p : BitPattern), ∃ (t u v w : State) (f g : FieldTriple) (o : TopOut),
    exec .decomp (s.driveDecomp p) = .next t ∧ t.out = .decomp f
    ∧ exec .negf (t.driveNegf f) = .next u ∧ u.out = .negf g
    ∧ exec .reasm (u.driveReasm g) = .next v ∧ v.out = .reasm (p ^^^ 0x8000000000000000#64)
    ∧ exec .fneg (v.driveTop 0b10 p 0) = .next w ∧ w.out = .top o ∧ o.y = p ^^^ 0x8000000000000000#64)

/-- R29: the constructor masks each field to its width. -/
def Obligations.MkFieldsMasksEachField : Prop :=
  ∀ x e m : Int, ((mkFields x e m).sign.toNat : Int) = x % 2 ^ 1
    ∧ ((mkFields x e m).exponent.toNat : Int) = e % 2 ^ 11
    ∧ ((mkFields x e m).mantissa.toNat : Int) = m % 2 ^ 52

/-! ALIGN -/

/-- R101 to R104: ALIGN orders by magnitude, restores the leading bits and shifts by the exponent difference. -/
def Obligations.AlignOrdersRestoresAndShifts : Prop :=
  ∀ s : State, ∃ (o : AlignOut) (L R : FieldTriple),
    exec .align s = .next { s with out := .align o, fault := none }
    ∧ (o.swap = 1 ∨ o.swap = 0)
    ∧ (o.swap = 1 ↔ s.inp.alignA.exponent.toNat < s.inp.alignB.exponent.toNat
        ∨ (s.inp.alignB.exponent = s.inp.alignA.exponent
            ∧ s.inp.alignA.mantissa.toNat < s.inp.alignB.mantissa.toNat))
    ∧ (o.swap = 1 ↔ rankOf s.inp.alignA < rankOf s.inp.alignB)
    ∧ (o.swap = 1 → L = s.inp.alignB ∧ R = s.inp.alignA)
    ∧ (o.swap = 0 → L = s.inp.alignA ∧ R = s.inp.alignB)
    ∧ o.resSign = L.sign ∧ o.resExp = L.exponent
    ∧ (o.effSub = 0 ∨ o.effSub = 1) ∧ (o.effSub = 1 ↔ L.sign ≠ R.sign)
    ∧ o.delta.toNat + R.exponent.toNat = L.exponent.toNat
    ∧ o.sigL.toNat = L.mantissa.toNat + 2 ^ 52
    ∧ o.sigR.toNat = (R.mantissa.toNat + 2 ^ 52) / 2 ^ o.delta.toNat

/-- R105: no shift amount wraps; a difference of 52 leaves the leading bit, 53 or more leaves nothing. -/
def Obligations.AlignLargeShiftsClear : Prop :=
  ∀ (s t : State) (o : AlignOut), exec .align s = .next t → t.out = .align o →
    (53 ≤ o.delta.toNat → o.sigR = 0) ∧ (o.delta.toNat = 52 → o.sigR = 1)

/-- R106: the ordering invariant, and when it is an equality. -/
def Obligations.AlignKeepsTheLargerOnTop : Prop :=
  ∀ (s t : State) (o : AlignOut), exec .align s = .next t → t.out = .align o →
    o.sigR.toNat ≤ o.sigL.toNat
    ∧ (o.sigL = o.sigR ↔ o.delta = 0 ∧ s.inp.alignA.mantissa = s.inp.alignB.mantissa)

/-- R107: the alignment truncates: the smaller operand loses less than one unit in the last place of the larger, and
nothing exactly when the bits shifted out are 0. -/
def Obligations.AlignTruncatesBelowOneUnit : Prop :=
  ∀ (s t : State) (o : AlignOut) (x : Nat), exec .align s = .next t → t.out = .align o →
    x = (if o.swap = 1 then s.inp.alignA.mantissa.toNat else s.inp.alignB.mantissa.toNat) + 2 ^ 52 →
    o.sigR.toNat * 2 ^ o.delta.toNat ≤ x
    ∧ x < (o.sigR.toNat + 1) * 2 ^ o.delta.toNat
    ∧ (x = o.sigR.toNat * 2 ^ o.delta.toNat ↔ x % 2 ^ min o.delta.toNat 53 = 0)

/-- R108: what exchanging the two operands of ALIGN changes. -/
def Obligations.AlignSymmetry : Prop :=
  ∀ (s t u : State) (A B : FieldTriple) (o p : AlignOut),
    exec .align (s.driveAlign A B) = .next t → t.out = .align o →
    exec .align (s.driveAlign B A) = .next u → u.out = .align p →
    p.resExp = o.resExp ∧ p.delta = o.delta ∧ p.sigL = o.sigL ∧ p.sigR = o.sigR ∧ p.effSub = o.effSub
    ∧ (rankOf A ≠ rankOf B → p.swap = o.swap ^^^ 1) ∧ (rankOf A = rankOf B → p.swap = o.swap)
    ∧ (rankOf A ≠ rankOf B ∨ A.sign = B.sign → p.resSign = o.resSign)
    ∧ (rankOf A = rankOf B → o.resSign = A.sign ∧ p.resSign = B.sign)

/-! COMBINE -/

/-- R121, R122: COMBINE completes for every addition, and for every subtraction that does not underflow; both are
exact. -/
def Obligations.CombineAddsOrSubtractsExactly : Prop :=
  ∀ s : State, (s.inp.effSub = 1 → s.inp.sigR.toNat ≤ s.inp.sigL.toNat) → ∃ m : U54,
    exec .combine s = .next { s with out := .combine ⟨m, 0⟩, fault := none }
    ∧ (s.inp.effSub = 0 → m.toNat = s.inp.sigL.toNat + s.inp.sigR.toNat)
    ∧ (s.inp.effSub = 1 → m.toNat + s.inp.sigR.toNat = s.inp.sigL.toNat)

/-- An underflow raises `Borrow` (R123): the bit is 1, the evaluation has no result (R181) and `mantissa_sum` is any
value. That COMBINE then answers a next state with the fault recorded is the model's choice, log entry 2 (read from R181
and R189). -/
def Obligations.CombineUnderflowRaisesBorrow : Prop :=
  ∀ s : State, s.inp.effSub = 1 → s.inp.sigL.toNat < s.inp.sigR.toNat → ∃ (m : U54) (t : State),
    exec .combine s = .next t ∧ t.out = .combine ⟨m, 1⟩ ∧ t.fault = some .borrow ∧ t.inp = s.inp
    ∧ t.result = .error .borrow

/-- R124: `Borrow` cannot occur in the top unit, nor in COMBINE driven with the outputs of ALIGN. That FADD and FSUB
answer a next state on cancelling operands too is the model's choice, log entry 2. -/
def Obligations.BorrowUnreachableInTheTopUnit : Prop :=
  (∀ s t u : State, ∀ o : AlignOut, exec .align s = .next t → t.out = .align o →
    exec .combine (t.driveCombine o.sigL o.sigR o.effSub) = .next u → u.fault = none)
  ∧ (∀ s : State, ∀ i : Instr, i = .fadd ∨ i = .fsub → ∃ (t : State) (o : TopOut),
    exec i s = .next t ∧ t.out = .top o ∧ t.fault ≠ some .borrow ∧ o.status.getLsbD 1 = false)

/-- R125, R140: the range of `mantissa_sum`, and with it of the shift counts, when COMBINE is fed by ALIGN. -/
def Obligations.CombineRangeInsideAddition : Prop :=
  ∀ (s t u : State) (o : AlignOut) (c : CombineOut), exec .align s = .next t → t.out = .align o →
    exec .combine (t.driveCombine o.sigL o.sigR o.effSub) = .next u → u.out = .combine c →
    (o.effSub = 0 → 2 ^ 52 ≤ c.mantissaSum.toNat ∧ c.mantissaSum.toNat ≤ 2 ^ 54 - 2)
    ∧ (o.effSub = 1 → c.mantissaSum.toNat ≤ 2 ^ 53 - 1
        ∧ (c.mantissaSum = 0 ↔ o.delta = 0 ∧ s.inp.alignA.mantissa = s.inp.alignB.mantissa)
        ∧ (c.mantissaSum = 0 ↔ rankOf s.inp.alignA = rankOf s.inp.alignB)
        ∧ (2 ≤ o.delta.toNat → 2 ^ 51 < c.mantissaSum.toNat)
        ∧ (1 ≤ o.delta.toNat → 1 ≤ c.mantissaSum.toNat)
        ∧ (2 ≤ o.delta.toNat → leftShifts c.mantissaSum.toNat ≤ 1)
        ∧ (o.delta = 0 → c.mantissaSum ≠ 0 → 1 ≤ leftShifts c.mantissaSum.toNat))

/-! NORM -/

/-- R135, with the counts `c` and `k` of R132 and R133 and the exponent of R134: NORM completes on every significand
but 0. -/
def Obligations.NormShiftsIntoRange : Prop :=
  ∀ (s : State) (m : Nat) (E : Int), m = s.inp.mantissaSum.toNat → m ≠ 0 →
    E = s.inp.expIn.toNat + rightShifts m - leftShifts m → ∃ o : NormOut,
    exec .norm s = .next { s with out := .norm o, fault := none }
    ∧ o.normMan.toNat + 2 ^ 52 = m / 2 ^ rightShifts m * 2 ^ leftShifts m
    ∧ (o.normExp.toNat : Int) = E % 2 ^ 11 ∧ o.zeroSum = 0
    ∧ (o.expWrap = 0 ∨ o.expWrap = 1) ∧ (o.expWrap = 1 ↔ E < 0 ∨ 2047 < E) ∧ -52 ≤ E ∧ E ≤ 2048

/-- R136: NORM raises `ZeroSum` on 0 and on nothing else; the bit is 1, the evaluation has no result, and the other
outputs are any values. That NORM answers a next state with the fault recorded, where R136 and R181 ask a model for a
fault outcome, is the model's choice, log entry 2. -/
def Obligations.NormZeroSumExactlyOnZero : Prop :=
  (∀ s : State, s.inp.mantissaSum = 0 → ∃ (o : NormOut) (t : State),
    exec .norm s = .next t ∧ t.out = .norm o ∧ o.zeroSum = 1 ∧ t.fault = some .zeroSum ∧ t.inp = s.inp
    ∧ t.result = .error .zeroSum)
  ∧ (∀ s t : State, exec .norm s = .next t → t.fault ≠ none → s.inp.mantissaSum = 0)

/-- R131: NORM is the closed form of the document's two loops: run long enough they end in the normalised range with
NORM's outputs; on 0 they never end, and NORM raises `ZeroSum` (R136). That NORM then answers a next state with the fault
recorded is the model's choice, log entry 2. -/
def Obligations.NormIsTheTwoLoops : Prop :=
  (∀ (s : State) (n : Nat), s.inp.mantissaSum ≠ 0 → 53 ≤ n → ∃ (x : Nat) (E : Int) (o : NormOut),
    leftShiftLoop n (rightShiftLoop n (s.inp.mantissaSum.toNat, (s.inp.expIn.toNat : Int))) = (x, E)
    ∧ 2 ^ 52 ≤ x ∧ x < 2 ^ 53
    ∧ exec .norm s = .next { s with out := .norm o, fault := none }
    ∧ o.normMan.toNat = x - 2 ^ 52 ∧ (o.normExp.toNat : Int) = E % 2 ^ 11
    ∧ (o.expWrap = 1 ↔ E < 0 ∨ 2047 < E))
  ∧ (∀ (n : Nat) (E : Int), leftShiftLoop n (rightShiftLoop n (0, E)) = (0, E - n))
  ∧ (∀ s : State, s.inp.mantissaSum = 0 → ∃ t, exec .norm s = .next t ∧ t.fault = some .zeroSum)

/-- R139: what normalisation preserves, as an equation between exact rationals with the unmasked exponent. -/
def Obligations.NormPreservesTheValue : Prop :=
  ∀ (s t : State) (o : NormOut) (m : Nat), exec .norm s = .next t → t.out = .norm o → t.fault = none →
    m = s.inp.mantissaSum.toNat →
    ((o.normMan.toNat : Rat) + 2 ^ (52 : Nat)) * 2 ^ (resultExp s.inp.expIn.toNat m - 1075)
      = ((m - (if 2 ^ 53 ≤ m then m % 2 else 0) : Nat) : Rat) * 2 ^ ((s.inp.expIn.toNat : Int) - 1075)

/-- R137: `exp_wrap` needs the exponent 2047 and a carry, or an exponent below the number of left shifts. -/
def Obligations.NormWrapOnlyAtTheEnds : Prop :=
  ∀ (s t : State) (o : NormOut) (m : Nat), exec .norm s = .next t → t.out = .norm o → t.fault = none →
    m = s.inp.mantissaSum.toNat →
    (o.expWrap = 1 ↔ (s.inp.expIn.toNat = 2047 ∧ 2 ^ 53 ≤ m) ∨ s.inp.expIn.toNat < leftShifts m)

/-! The top unit -/

/-- R152: FADD completes on every pair of patterns that does not cancel, with the result of the rules' own integer
arithmetic. -/
def Obligations.FaddIsTruncatingFieldAddition : Prop :=
  ∀ s : State, ¬ cancels s.inp.a s.inp.b → ∃ o : TopOut,
    exec .fadd s = .next { s with out := .top o, fault := none }
    ∧ AdditionResult (decompose s.inp.a) (decompose s.inp.b) o.y o.status
    ∧ o.fields = decompose o.y

/-- R153: FSUB completes on every pair of different patterns, with the result of adding the negated operand. -/
def Obligations.FsubIsTruncatingFieldSubtraction : Prop :=
  ∀ s : State, s.inp.a ≠ s.inp.b → ∃ o : TopOut,
    exec .fsub s = .next { s with out := .top o, fault := none }
    ∧ AdditionResult (decompose s.inp.a) (negate (decompose s.inp.b)) o.y o.status
    ∧ o.fields = decompose o.y

/-- R182: the only fault of the top unit, and exactly when. `status[0]` is 1, `status[1]` is 0, the evaluation has no
result, and `y`, its fields and `status[2]` are any values (R181); FNEG and FCMPEQ raise nothing (R180). That FADD and
FSUB answer a next state with the fault recorded is the model's choice, log entry 2. -/
def Obligations.ZeroSumExactlyOnCancellation : Prop :=
  (∀ s : State, cancels s.inp.a s.inp.b → ∃ (t : State) (o : TopOut),
    exec .fadd s = .next t ∧ t.out = .top o ∧ t.fault = some .zeroSum ∧ t.result = .error .zeroSum
    ∧ t.inp = s.inp ∧ o.status.getLsbD 0 = true ∧ o.status.getLsbD 1 = false)
  ∧ (∀ s : State, s.inp.a = s.inp.b → ∃ (t : State) (o : TopOut),
    exec .fsub s = .next t ∧ t.out = .top o ∧ t.fault = some .zeroSum ∧ t.result = .error .zeroSum
    ∧ t.inp = s.inp ∧ o.status.getLsbD 0 = true ∧ o.status.getLsbD 1 = false)
  ∧ (∀ a b : BitPattern, cancels a b ↔ b = a ^^^ 0x8000000000000000#64)
  ∧ (∀ s t : State, exec .fadd s = .next t → t.fault ≠ none → cancels s.inp.a s.inp.b)
  ∧ (∀ s t : State, exec .fsub s = .next t → t.fault ≠ none → s.inp.a = s.inp.b)
  ∧ (∀ s t : State, ∀ i : Instr, i = .fneg ∨ i = .fcmpeq → exec i s = .next t → t.fault = none)

/-- R150: the top unit is the wiring of the six units: the host that drives the inner units one after another gets the
pattern and the `exp_wrap` of FADD, and with the negated second operand those of FSUB. -/
def Obligations.TopUnitIsTheWiringOfTheUnits : Prop :=
  ∀ (s : State) (a b : BitPattern) (sub : Bool) (t1 t2 t3 t4 t5 t6 t7 t8 : State) (A B0 B1 : FieldTriple)
    (al : AlignOut) (c : CombineOut) (n : NormOut) (p : BitPattern) (o : TopOut),
    exec .decomp (s.driveDecomp a) = .next t1 → t1.out = .decomp A →
    exec .decomp (t1.driveDecomp b) = .next t2 → t2.out = .decomp B0 →
    exec .negf (t2.driveNegf B0) = .next t3 → t3.out = .negf B1 →
    exec .align (t3.driveAlign A (if sub then B1 else B0)) = .next t4 → t4.out = .align al →
    exec .combine (t4.driveCombine al.sigL al.sigR al.effSub) = .next t5 → t5.out = .combine c →
    exec .norm (t5.driveNorm c.mantissaSum al.resExp) = .next t6 → t6.out = .norm n →
    exec .reasm (t6.driveReasm ⟨al.resSign, n.normExp, n.normMan⟩) = .next t7 → t7.out = .reasm p →
    exec (if sub then .fsub else .fadd) (t7.driveTop (if sub then 0b01 else 0b00) a b) = .next t8 →
    t8.out = .top o →
    t5.fault = none ∧ t8.fault = t6.fault
    ∧ (t6.fault = none → o.y = p ∧ o.fields = ⟨al.resSign, n.normExp, n.normMan⟩
        ∧ o.status = n.expWrap ++ c.borrow ++ n.zeroSum)

/-- R154: FNEG completes on every pattern and inverts bit 63 of `a`; `b` takes no part. -/
def Obligations.FnegInvertsBit63 : Prop :=
  ∀ s : State, ∃ o : TopOut,
    exec .fneg s = .next { s with out := .top o, fault := none }
    ∧ o.y = s.inp.a ^^^ 0x8000000000000000#64 ∧ o.fields = negate (decompose s.inp.a) ∧ o.fields = decompose o.y
    ∧ o.status = 0 ∧ val o.fields = -val (decompose s.inp.a)

/-- R155: FCMPEQ completes on every pair of patterns with the truth value of bit identity in `y[0]`. -/
def Obligations.FcmpeqIsBitIdentity : Prop :=
  ∀ s : State, ∃ o : TopOut,
    exec .fcmpeq s = .next { s with out := .top o, fault := none }
    ∧ (s.inp.a = s.inp.b → o.y = 1) ∧ (s.inp.a ≠ s.inp.b → o.y = 0)
    ∧ o.fields = decompose o.y ∧ o.status = 0

/-- R157: FSUB is FADD of the negated operand: same result and status, or same fault. -/
def Obligations.FsubIsFaddOfFneg : Prop :=
  ∀ (s t u v : State) (a b x : BitPattern) (o : TopOut),
    exec .fneg (s.driveTop 0b10 b x) = .next t → t.out = .top o →
    exec .fadd (t.driveTop 0b00 a o.y) = .next u →
    exec .fsub (s.driveTop 0b01 a b) = .next v →
    v.result = u.result

/-- R158: FADD is commutative: same result and status, or the same fault. It is not associative: some three patterns
give different results, without a fault, in the two groupings. -/
def Obligations.FaddIsCommutativeNotAssociative : Prop :=
  (∀ (s t u : State) (a b : BitPattern),
    exec .fadd (s.driveTop 0b00 a b) = .next t → exec .fadd (s.driveTop 0b00 b a) = .next u →
    u.result = t.result)
  ∧ (∀ s : State, ∃ (a b c : BitPattern) (t u v w : State) (ab bc l r : TopOut),
    exec .fadd (s.driveTop 0b00 a b) = .next t ∧ t.result = .ok (.top ab)
    ∧ exec .fadd (t.driveTop 0b00 ab.y c) = .next u ∧ u.result = .ok (.top l)
    ∧ exec .fadd (u.driveTop 0b00 b c) = .next v ∧ v.result = .ok (.top bc)
    ∧ exec .fadd (v.driveTop 0b00 a bc.y) = .next w ∧ w.result = .ok (.top r) ∧ l.y ≠ r.y)

/-- R161: FNEG is an involution that inverts the sign bit and nothing else, and negating both operands of FADD negates
the result. -/
def Obligations.NegatingOperandsNegatesTheSum : Prop :=
  (∀ (s t u : State) (a x : BitPattern) (o p : TopOut),
    exec .fneg (s.driveTop 0b10 a x) = .next t → t.out = .top o →
    exec .fneg (t.driveTop 0b10 o.y x) = .next u → u.out = .top p →
    p.y = a ∧ o.ySign ≠ (decompose a).sign ∧ o.yExp = (decompose a).exponent ∧ o.yMan = (decompose a).mantissa)
  ∧ (∀ (s t u : State) (a b : BitPattern) (o p : TopOut),
    exec .fadd (s.driveTop 0b00 a b) = .next t → t.out = .top o → t.fault = none →
    exec .fadd (s.driveTop 0b00 (a ^^^ 0x8000000000000000#64) (b ^^^ 0x8000000000000000#64)) = .next u → u.out = .top p →
    u.fault = none ∧ p.y = o.y ^^^ 0x8000000000000000#64 ∧ p.status = o.status)

/-- The corner case of R153: exchanging the operands of FSUB changes bit 63 of the result and nothing else. -/
def Obligations.FsubIsAntisymmetric : Prop :=
  ∀ (s t u : State) (a b : BitPattern) (o p : TopOut),
    exec .fsub (s.driveTop 0b01 a b) = .next t → t.out = .top o → t.fault = none →
    exec .fsub (s.driveTop 0b01 b a) = .next u → u.out = .top p →
    u.fault = none ∧ p.y = o.y ^^^ 0x8000000000000000#64 ∧ p.status = o.status

/-- R159, signs equal: without wrap, the magnitude of the result is the exact sum of the magnitudes truncated to 53
significant bits, and the sign is the operands'. -/
def Obligations.SameSignSumTruncatesTo53Bits : Prop :=
  ∀ (s t : State) (o : TopOut) (A B : FieldTriple), A = decompose s.inp.a → B = decompose s.inp.b →
    exec .fadd s = .next t → t.out = .top o → t.fault = none → o.status = 0 → A.sign = B.sign →
    ∃ (n : Nat) (k : Int), 2 ^ 52 ≤ n ∧ n < 2 ^ 53
      ∧ |val (decompose o.y)| = (n : Rat) * 2 ^ k
      ∧ (n : Rat) * 2 ^ k ≤ |val A| + |val B| ∧ |val A| + |val B| < ((n : Rat) + 1) * 2 ^ k
      ∧ o.ySign = A.sign

/-- R159, signs different: without wrap, the magnitude of the result is the exact difference of the magnitudes rounded
up to a multiple of the unit in the last place of the larger operand, it is exact when the exponents are equal, and the
sign is that of the larger operand. -/
def Obligations.DifferentSignSumRoundsUpToAUnit : Prop :=
  ∀ (s t : State) (o : TopOut) (A B : FieldTriple), A = decompose s.inp.a → B = decompose s.inp.b →
    exec .fadd s = .next t → t.out = .top o → t.fault = none → o.status = 0 → A.sign ≠ B.sign →
    ∃ n : Nat, |val (decompose o.y)| = (n : Rat) * ulpOf A B
      ∧ largerAbs A B - smallerAbs A B ≤ (n : Rat) * ulpOf A B
      ∧ ((n : Rat) - 1) * ulpOf A B < largerAbs A B - smallerAbs A B
      ∧ (A.exponent = B.exponent → |val (decompose o.y)| = largerAbs A B - smallerAbs A B)
      ∧ (|val A| < |val B| → o.ySign = B.sign) ∧ (|val B| < |val A| → o.ySign = A.sign)

/-- The corner case of R152: adding a pattern to itself keeps sign and mantissa and adds 1 to the exponent, which wraps
only from 2047. -/
def Obligations.FaddOfEqualOperandsDoubles : Prop :=
  ∀ (s : State) (a : BitPattern), ∃ (t : State) (o : TopOut),
    exec .fadd (s.driveTop 0b00 a a) = .next t ∧ t.out = .top o ∧ t.fault = none
    ∧ o.ySign = (decompose a).sign ∧ o.yMan = (decompose a).mantissa
    ∧ o.yExp = (decompose a).exponent + 1
    ∧ (o.status.getLsbD 2 = true ↔ (decompose a).exponent.toNat = 2047)

/-- The corner case of R152 and R105: from an exponent difference of 53 on, the result is the larger operand
unchanged, for addition and subtraction alike. -/
def Obligations.FarSmallerOperandIsAbsorbed : Prop :=
  ∀ (s t u : State) (o p : TopOut), exec .fadd s = .next t → t.out = .top o →
    exec .fsub s = .next u → u.out = .top p →
    ((decompose s.inp.b).exponent.toNat + 53 ≤ (decompose s.inp.a).exponent.toNat →
      t.fault = none ∧ o.y = s.inp.a ∧ o.status = 0 ∧ u.fault = none ∧ p.y = s.inp.a ∧ p.status = 0)
    ∧ ((decompose s.inp.a).exponent.toNat + 53 ≤ (decompose s.inp.b).exponent.toNat →
      t.fault = none ∧ o.y = s.inp.b ∧ o.status = 0
      ∧ u.fault = none ∧ p.y = s.inp.b ^^^ 0x8000000000000000#64 ∧ p.status = 0)

/-- R207: with normalised operands `exp_wrap` is set by cancellation near the bottom of the range only, never by a
carry: the signs of the effective addition differ and the masked exponent stands for −52 to −1. -/
def Obligations.NormalisedOperandsWrapOnlyByCancellation : Prop :=
  ∀ (s t : State) (o : TopOut), normalised s.inp.a → normalised s.inp.b → exec .fadd s = .next t →
    t.out = .top o → t.fault = none → o.status.getLsbD 2 = true →
    (decompose s.inp.a).sign ≠ (decompose s.inp.b).sign ∧ 1996 ≤ o.yExp.toNat
    ∧ (decompose s.inp.a).exponent.toNat < 52 ∧ (decompose s.inp.b).exponent.toNat < 52

/-- R204: FCMPEQ of the operands tells in advance whether FSUB faults. The fault is read from the next state, where the
model records it (log entry 2). -/
def Obligations.FcmpeqPredictsTheFaultOfFsub : Prop :=
  ∀ (s t u : State) (a b : BitPattern) (o : TopOut),
    exec .fcmpeq (s.driveTop 0b11 a b) = .next t → t.out = .top o →
    exec .fsub (t.driveTop 0b01 a b) = .next u →
    (o.y = 1 ↔ u.fault = some .zeroSum) ∧ (o.y = 0 ↔ u.fault = none)

/-! The whole machine -/

/-- R202: every evaluation yields an outcome; no operation and no step stops or hangs, on any values of the ports. That a
fault too is a next state is the model's choice, log entry 2. -/
def Obligations.EveryEvaluationYieldsAnOutcome : Prop :=
  (∀ (i : Instr) (s : State), ∃ t, exec i s = .next t) ∧ (∀ s : State, ∃ t, step s = .next t)

/-- The frame of every operation (R20, R43): the inputs are as before; the outputs are those of the operation's unit;
the model's counter of free values moves exactly when a fault is raised. -/
def Obligations.EvaluationsLeaveTheInputsAlone : Prop :=
  ∀ (i : Instr) (s t : State), exec i s = .next t →
    t.inp = s.inp
    ∧ (t.fault = none → t.freeIndex = s.freeIndex)
    ∧ (t.fault ≠ none → t.freeIndex = s.freeIndex + 1 ∧ (i = .combine ∨ i = .norm ∨ i = .fadd ∨ i = .fsub))
    ∧ (match i with
        | .decomp  => ∃ f, t.out = .decomp f
        | .decode  => ∃ v, t.out = .decode v
        | .reasm   => ∃ p, t.out = .reasm p
        | .negf    => ∃ f, t.out = .negf f
        | .align   => ∃ o, t.out = .align o
        | .combine => ∃ o, t.out = .combine o
        | .norm    => ∃ o, t.out = .norm o
        | .fadd    => ∃ o, t.out = .top o
        | .fsub    => ∃ o, t.out = .top o
        | .fneg    => ∃ o, t.out = .top o
        | .fcmpeq  => ∃ o, t.out = .top o)

/-- R46, R27: an evaluation depends on its own operands only: not on other inputs, not on earlier evaluations, not on
a fault before it. With equal operands the results are equal, or the same fault is raised. -/
def Obligations.EvaluationsAreIndependent : Prop :=
  ∀ (i : Instr) (s s' t t' : State), sameOperands i s.inp s'.inp → exec i s = .next t → exec i s' = .next t' →
    t'.result = t.result

/-- R43, R189: repeating an evaluation gives the same result, or faults again; a fault needs no clearing. That a step
which faults answers a next state is the model's choice, log entry 2. -/
def Obligations.RepeatingAStepRepeatsItsResult : Prop :=
  ∀ s t : State, step s = .next t → ∃ u, step t = .next u ∧ u.result = t.result ∧ u.inp = s.inp

/-- The invariant of the outputs (R66, R83, R105, R106, R124, R156, R162, R180): every step from every state, legal or
not, gives legal outputs. It asks for no premise because a step overwrites the outputs it is about. That a step which
faults answers a state at all is the model's choice, log entry 2. -/
def Obligations.EveryStepGivesLegalOutputs : Prop :=
  ∀ s t : State, step s = .next t → OutputsLegal t

/-- The outputs right after power-up are legal, and they are the function of the current inputs (R32): evaluating them
changes nothing. The values on the INPUTS are the model's choice (log entry 4). -/
def Obligations.PowerUpOutputsFollowTheInputs : Prop :=
  OutputsLegal State.reset ∧ step State.reset = .next State.reset
end

