-- ==== Sys2Proof/Laws/Decode.lean ====
section
/-! SUPPORT. The select wires and the operation they carry, and the request on the ports. -/

namespace Sys2Proof

@[simp] theorem decodeOp_values :
    decodeOp 0b00 = .fadd ∧ decodeOp 0b01 = .fsub ∧ decodeOp 0b10 = .fneg ∧ decodeOp 0b11 = .fcmpeq := by decide

theorem op_cases (op : U2) : op = 0b00 ∨ op = 0b01 ∨ op = 0b10 ∨ op = 0b11 := by
  have h := op.isLt
  rcases (by omega : op.toNat = 0 ∨ op.toNat = 1 ∨ op.toNat = 2 ∨ op.toNat = 3) with h | h | h | h
  · exact .inl (BitVec.eq_of_toNat_eq h)
  · exact .inr (.inl (BitVec.eq_of_toNat_eq h))
  · exact .inr (.inr (.inl (BitVec.eq_of_toNat_eq h)))
  · exact .inr (.inr (.inr (BitVec.eq_of_toNat_eq h)))

/-- Wire i carries bit i (R7). -/
theorem opOfWires_wiresOfOp (op : U2) : opOfWires (op.getLsbD 0) (op.getLsbD 1) = op := by
  rcases op_cases op with rfl | rfl | rfl | rfl <;> decide

namespace Machine

/-- The request on the ports decodes to the operation they select. -/
theorem decode_request (s : State) : decode s.request = .ok s.selected := by
  unfold State.request State.selected
  cases s.inp.path <;> simp only [wiresOfOp, decode, decodePorts, opOfWires_wiresOfOp]

@[simp] theorem step_eq (s : State) : step s = exec s.selected s := rfl

@[simp] theorem selected_driveTop (s : State) (op : U2) (a b : BitPattern) :
    (s.driveTop op a b).selected = decodeOp op := rfl

end Machine

end Sys2Proof
end

