-- ==== Sys2Proof/Laws/Operands.lean ====
section
/-! SUPPORT. The laws of the operand operations: fields as numbers (R51), round trips (R85), negation (R86), the
significand (R53) and the reference value (R83) in closed form. -/

namespace Sys2Proof.Machine

@[simp] theorem decompose_sign_toNat (p : BitPattern) : (decompose p).sign.toNat = p.toNat / 2 ^ 63 := by
  simp [decompose, Nat.shiftRight_eq_div_pow]; omega

@[simp] theorem decompose_exponent_toNat (p : BitPattern) :
    (decompose p).exponent.toNat = p.toNat / 2 ^ 52 % 2 ^ 11 := by
  simp [decompose, Nat.shiftRight_eq_div_pow]

@[simp] theorem decompose_mantissa_toNat (p : BitPattern) :
    (decompose p).mantissa.toNat = p.toNat % 2 ^ 52 := by
  simp [decompose]

/-- R51: the three terms occupy disjoint bits. -/
theorem reassemble_toNat (f : FieldTriple) :
    (reassemble f).toNat = f.sign.toNat * 2 ^ 63 + f.exponent.toNat * 2 ^ 52 + f.mantissa.toNat := by
  have he := f.exponent.isLt
  have hm := f.mantissa.isLt
  rw [reassemble, BitVec.toNat_append, BitVec.toNat_append,
    ← Nat.shiftLeft_add_eq_or_of_lt he, ← Nat.shiftLeft_add_eq_or_of_lt hm]
  simp only [Nat.shiftLeft_eq]
  omega

@[simp] theorem decompose_reassemble (f : FieldTriple) : decompose (reassemble f) = f := by
  have hs := f.sign.isLt
  have he := f.exponent.isLt
  have hm := f.mantissa.isLt
  ext1 <;> apply BitVec.eq_of_toNat_eq <;> simp only [decompose_sign_toNat, decompose_exponent_toNat,
    decompose_mantissa_toNat, reassemble_toNat] <;> omega

@[simp] theorem reassemble_decompose (p : BitPattern) : reassemble (decompose p) = p := by
  have hp := p.isLt
  apply BitVec.eq_of_toNat_eq
  simp only [reassemble_toNat, decompose_sign_toNat, decompose_exponent_toNat, decompose_mantissa_toNat]
  omega

theorem u1_cases (x : U1) : x = 0 ∨ x = 1 := by
  have := x.isLt
  rcases (by omega : x.toNat = 0 ∨ x.toNat = 1) with h | h
  · exact .inl (BitVec.eq_of_toNat_eq h)
  · exact .inr (BitVec.eq_of_toNat_eq h)

@[simp] theorem negate_sign_toNat (f : FieldTriple) : (negate f).sign.toNat = 1 - f.sign.toNat := by
  rcases u1_cases f.sign with h | h <;> simp [negate, h]

@[simp] theorem negate_exponent (f : FieldTriple) : (negate f).exponent = f.exponent := rfl
@[simp] theorem negate_mantissa (f : FieldTriple) : (negate f).mantissa = f.mantissa := rfl

@[simp] theorem negate_negate (f : FieldTriple) : negate (negate f) = f := by
  simp [negate]

/-- R86: field-level and pattern-level negation agree. -/
theorem decompose_flip (p : BitPattern) :
    decompose (p ^^^ 0x8000000000000000#64) = negate (decompose p) := by
  have hs : BitVec.extractLsb' 63 1 (0x8000000000000000#64 : U64) = 1 := by decide
  have he : BitVec.extractLsb' 52 11 (0x8000000000000000#64 : U64) = 0#11 := by decide
  have hm : BitVec.extractLsb' 0 52 (0x8000000000000000#64 : U64) = 0#52 := by decide
  simp only [decompose, negate, BitVec.extractLsb'_xor, hs, he, hm, BitVec.xor_zero]

theorem reassemble_negate_decompose (p : BitPattern) :
    reassemble (negate (decompose p)) = p ^^^ 0x8000000000000000#64 := by
  rw [← decompose_flip, reassemble_decompose]

/-- R53: before any shift a significand is `mantissa + 2^52`. -/
@[simp] theorem significand_toNat (m : U52) : (significand m).toNat = m.toNat + 2 ^ 52 := by
  have hm := m.isLt
  rw [significand, BitVec.toNat_append, ← Nat.shiftLeft_add_eq_or_of_lt hm]
  simp [Nat.shiftLeft_eq]; omega

/-- `val` as a signed significand times a power of two (R53). -/
theorem val_eq (f : FieldTriple) :
    val f = (-1) ^ f.sign.toNat
      * (((f.mantissa.toNat + 2 ^ 52 : Nat) : Rat) * 2 ^ ((f.exponent.toNat : Int) - 1075)) := by
  have h : ((f.exponent.toNat : Int) - (Config.bias : Int)) = ((f.exponent.toNat : Int) - 1075) + 52 := by
    simp [Config.bias]; omega
  rw [val, h, zpow_add₀ (by norm_num)]
  simp only [Config.hidden]
  push_cast
  ring

theorem abs_val (f : FieldTriple) :
    |val f| = ((f.mantissa.toNat + 2 ^ 52 : Nat) : Rat) * 2 ^ ((f.exponent.toNat : Int) - 1075) := by
  rw [val_eq, abs_mul, abs_pow, abs_neg, abs_one, one_pow, one_mul]
  exact abs_of_nonneg (by positivity)

theorem val_negate (f : FieldTriple) : val (negate f) = -val f := by
  rw [val_eq, val_eq]
  rcases u1_cases f.sign with h | h <;> simp [negate, h]

end Sys2Proof.Machine
end

