-- ==== Sys2Proof/Laws/Flags.lean ====
section
/-! SUPPORT. The flags bit by bit, and the ordering condition as a comparison of numbers (R101, R51). -/

namespace Sys2Proof.Machine

theorem swapNeeded_iff (A B : FieldTriple) :
    swapNeeded A B = true ↔ A.exponent.toNat < B.exponent.toNat
      ∨ (B.exponent = A.exponent ∧ A.mantissa.toNat < B.mantissa.toNat) := by
  simp [swapNeeded]

theorem effSubOf_eq_zero (L R : FieldTriple) : effSubOf L R = 0 ↔ L.sign = R.sign := by
  rcases u1_cases L.sign with h | h <;> rcases u1_cases R.sign with h' | h' <;> simp [effSubOf, h, h']

theorem effSubOf_comm (L R : FieldTriple) : effSubOf L R = effSubOf R L :=
  BitVec.xor_comm ..

theorem expWrapOf_eq_zero (e : Int) : expWrapOf e = 0 ↔ 0 ≤ e ∧ e ≤ 2047 := by
  by_cases h : e < 0 <;> by_cases h' : 2047 < e <;> (simp [expWrapOf, h, h']; try omega)

theorem statusOf_bits (w b z : U1) :
    (statusOf w b z).getLsbD 0 = z.getLsbD 0 ∧ (statusOf w b z).getLsbD 1 = b.getLsbD 0
      ∧ (statusOf w b z).getLsbD 2 = w.getLsbD 0 := by
  rcases u1_cases w with rfl | rfl <;> rcases u1_cases b with rfl | rfl <;>
    rcases u1_cases z with rfl | rfl <;> decide

theorem statusOf_eq_zero (w : U1) : statusOf w 0 0 = 0 ↔ w = 0 := by
  rcases u1_cases w with rfl | rfl <;> decide

/-- After `ZeroSum` the two specified bits of `status` are as R66 says. -/
theorem statusAfterFault_zeroSum (n : Nat) :
    (statusAfterFault .zeroSum n).getLsbD 0 = true ∧ (statusAfterFault .zeroSum n).getLsbD 1 = false := by
  have h := statusOf_bits (Config.freeStatusExpWrap n) 0 1
  exact ⟨h.1, h.2.1⟩

/-- After `Borrow` the one specified bit of `status` is as R66 says. -/
theorem statusAfterFault_borrow (n : Nat) : (statusAfterFault .borrow n).getLsbD 1 = true :=
  (statusOf_bits (Config.freeStatusExpWrap n) 1 (Config.freeStatusZeroSum n)).2.1

@[simp] theorem topResult_y (y : BitPattern) (st : U3) : (topResult y st).y = y := rfl
@[simp] theorem topResult_status (y : BitPattern) (st : U3) : (topResult y st).status = st := rfl
@[simp] theorem topResult_ySign (y : BitPattern) (st : U3) :
    (topResult y st).ySign = (decompose y).sign := rfl
@[simp] theorem topResult_yExp (y : BitPattern) (st : U3) :
    (topResult y st).yExp = (decompose y).exponent := rfl
@[simp] theorem topResult_yMan (y : BitPattern) (st : U3) :
    (topResult y st).yMan = (decompose y).mantissa := rfl
@[simp] theorem topAfterFault_status (f : Fault) (n : Nat) :
    (topAfterFault f n).status = statusAfterFault f n := rfl

end Sys2Proof.Machine
end

