-- ==== Sys2Proof/Laws/Ops.lean ====
section
/-! SUPPORT. One lemma per stage of the addition that says once everything it can do, and one for their composition. -/

namespace Sys2Proof.Machine

/-- R8: the shift is the mathematical one for every amount. -/
@[simp] theorem shr_toNat {w : Nat} (v : BitVec w) (n : Nat) : (shr v n).toNat = v.toNat / 2 ^ n := by
  simp [shr, Nat.shiftRight_eq_div_pow]

theorem div_two_pow_le_half (x : Nat) {d : Nat} (hd : 0 < d) : x / 2 ^ d ≤ x / 2 := by
  obtain ⟨k, rfl⟩ : ∃ k, d = k + 1 := ⟨d - 1, by omega⟩
  rw [pow_succ', ← Nat.div_div_eq_div_mul]
  exact Nat.div_le_self _ _

/-- What ALIGN does, in terms of the ordered operands `L` and `R`. -/
structure AlignedAs (A B L R : FieldTriple) (o : AlignOut) : Prop where
  order    : (o.swap = 0 ∧ L = A ∧ R = B) ∨ (o.swap = 1 ∧ L = B ∧ R = A)
  swapIff  : o.swap = 1 ↔ A.exponent.toNat < B.exponent.toNat
              ∨ (B.exponent = A.exponent ∧ A.mantissa.toNat < B.mantissa.toNat)
  exponent : R.exponent.toNat ≤ L.exponent.toNat
  mantissa : R.exponent = L.exponent → R.mantissa.toNat ≤ L.mantissa.toNat
  resSign  : o.resSign = L.sign
  resExp   : o.resExp = L.exponent
  effSub   : o.effSub = effSubOf L R
  delta    : o.delta.toNat = L.exponent.toNat - R.exponent.toNat
  sigL     : o.sigL.toNat = L.mantissa.toNat + 2 ^ 52
  sigR     : o.sigR.toNat = (R.mantissa.toNat + 2 ^ 52) / 2 ^ (L.exponent.toNat - R.exponent.toNat)

theorem align_spec (A B : FieldTriple) : ∃ L R, AlignedAs A B L R (align A B) := by
  have key : ∀ L R : FieldTriple, R.exponent.toNat ≤ L.exponent.toNat →
      (L.exponent - R.exponent).toNat = L.exponent.toNat - R.exponent.toNat := fun L R h => by
    rw [BitVec.toNat_sub_of_le (by simpa [BitVec.le_def] using h)]
  by_cases h : swapNeeded A B
  · have h' := (swapNeeded_iff A B).1 h
    have he : A.exponent.toNat ≤ B.exponent.toNat := by
      rcases h' with h' | ⟨h', _⟩
      · omega
      · rw [h']
    refine ⟨B, A, .inr ⟨?_, rfl, rfl⟩, by simp [align, h, h'], he, fun e => ?_, by simp [align, h], by simp [align, h],
      by simp [align, h], by simp [align, h, key B A he], by simp [align, h], by simp [align, h, key B A he]⟩
    · simp [align, h]
    rcases h' with h' | ⟨_, h'⟩
    · rw [e] at h'; omega
    · omega
  · have h' := fun x => h ((swapNeeded_iff A B).2 x)
    have he : B.exponent.toNat ≤ A.exponent.toNat := by
      by_contra hc
      exact h' (.inl (by omega))
    refine ⟨A, B, .inl ⟨?_, rfl, rfl⟩, by rw [← swapNeeded_iff]; simp [align, h], he, fun e => ?_, by simp [align, h], by simp [align, h],
      by simp [align, h], by simp [align, h, key A B he], by simp [align, h], by simp [align, h, key A B he]⟩
    · simp [align, h]
    by_contra hc
    exact h' (.inr ⟨e, by omega⟩)

namespace AlignedAs

variable {A B L R : FieldTriple} {o : AlignOut}

/-- R106. -/
theorem sigR_le_sigL (h : AlignedAs A B L R o) : o.sigR.toNat ≤ o.sigL.toNat := by
  rw [h.sigL, h.sigR]
  rcases Nat.eq_zero_or_pos (L.exponent.toNat - R.exponent.toNat) with hd | hd
  · have he : R.exponent = L.exponent := BitVec.eq_of_toNat_eq (by have := h.exponent; omega)
    have := h.mantissa he
    rw [hd]; omega
  · have := div_two_pow_le_half (R.mantissa.toNat + 2 ^ 52) hd
    have := R.mantissa.isLt
    omega

/-- The two significands are equal exactly when exponents and mantissas are (R106). -/
theorem sigL_eq_sigR_iff (h : AlignedAs A B L R o) :
    o.sigL.toNat = o.sigR.toNat ↔ R.exponent = L.exponent ∧ R.mantissa = L.mantissa := by
  rw [h.sigL, h.sigR]
  rcases Nat.eq_zero_or_pos (L.exponent.toNat - R.exponent.toNat) with hd | hd
  · have he : R.exponent = L.exponent := BitVec.eq_of_toNat_eq (by have := h.exponent; omega)
    rw [hd, ← BitVec.toNat_inj (x := R.mantissa)]
    simp [he]; omega
  · have := div_two_pow_le_half (R.mantissa.toNat + 2 ^ 52) hd
    have := R.mantissa.isLt
    constructor
    · intro; omega
    · rintro ⟨he, _⟩; rw [he] at hd; omega

end AlignedAs

/-- COMBINE adds when the signs match (R121). -/
theorem combine_add (l r : U53) :
    combine l r 0 = .ok ⟨BitVec.ofNat 54 (l.toNat + r.toNat), 0⟩ := rfl

/-- COMBINE subtracts when the signs differ and the difference is not negative (R121). -/
theorem combine_sub {l r : U53} (h : r.toNat ≤ l.toNat) :
    combine l r 1 = .ok ⟨BitVec.ofNat 54 (l.toNat - r.toNat), 0⟩ := by
  simp [combine, h]

/-- COMBINE faults exactly when it would underflow (R123). -/
theorem combine_borrow {l r : U53} (h : l.toNat < r.toNat) : combine l r 1 = .error .borrow := by
  simp [combine, Nat.not_le.2 h]

theorem combine_sum_toNat (l r : U53) : (BitVec.ofNat 54 (l.toNat + r.toNat)).toNat = l.toNat + r.toNat := by
  have := l.isLt
  have := r.isLt
  rw [BitVec.toNat_ofNat]; omega

theorem combine_diff_toNat (l r : U53) : (BitVec.ofNat 54 (l.toNat - r.toNat)).toNat = l.toNat - r.toNat := by
  have := l.isLt
  rw [BitVec.toNat_ofNat]; omega

/-- The left shift of R133 ends in the normalised range. -/
theorem leftShift_normalises {s : Nat} (h0 : s ≠ 0) (h : s < 2 ^ 52) :
    1 ≤ 52 - msb s ∧ 52 - msb s ≤ 52 ∧ 2 ^ 52 ≤ s * 2 ^ (52 - msb s) ∧ s * 2 ^ (52 - msb s) < 2 ^ 53 := by
  have h1 : 2 ^ msb s ≤ s := Nat.log2_self_le h0
  have h2 : s < 2 ^ (msb s + 1) := Nat.lt_log2_self
  have h3 : msb s < 52 := (Nat.log2_lt h0).2 h
  have e1 : 2 ^ msb s * 2 ^ (52 - msb s) = 2 ^ 52 := by rw [← pow_add]; congr 1; omega
  have e2 : 2 ^ (msb s + 1) * 2 ^ (52 - msb s) = 2 ^ 53 := by rw [← pow_add]; congr 1; omega
  refine ⟨by omega, by omega, ?_, ?_⟩
  · rw [← e1]; exact Nat.mul_le_mul_right _ h1
  · rw [← e2]; exact Nat.mul_lt_mul_of_pos_right h2 (by positivity)

/-- What NORM can do (R135): fault on 0, shift right once, leave alone, or shift left `k` times. -/
theorem normalizeSig_cases (sum : U54) (e : U11) :
    (sum.toNat = 0 ∧ normalizeSig sum e = .error .zeroSum)
    ∨ (2 ^ 53 ≤ sum.toNat ∧ normalizeSig sum e = .ok (normOut (sum.toNat / 2) (e.toNat + 1)))
    ∨ (2 ^ 52 ≤ sum.toNat ∧ sum.toNat < 2 ^ 53 ∧ normalizeSig sum e = .ok (normOut sum.toNat e.toNat))
    ∨ (∃ k : Nat, 1 ≤ k ∧ k ≤ 52 ∧ sum.toNat < 2 ^ 52 ∧ 2 ^ 52 ≤ sum.toNat * 2 ^ k
        ∧ sum.toNat * 2 ^ k < 2 ^ 53 ∧ normalizeSig sum e = .ok (normOut (sum.toNat * 2 ^ k) (e.toNat - k))) := by
  by_cases h0 : sum.toNat = 0
  · exact .inl ⟨h0, by simp [normalizeSig, h0]⟩
  refine .inr ?_
  by_cases h1 : 2 ^ 53 ≤ sum.toNat
  · exact .inl ⟨h1, by rw [normalizeSig, if_neg h0, if_pos (by simpa [Config.hidden] using h1)]⟩
  refine .inr ?_
  have h1' : ¬ 2 * Config.hidden ≤ sum.toNat := by simp only [Config.hidden]; omega
  by_cases h2 : sum.toNat < 2 ^ 52
  · obtain ⟨ha, hb, hc, hd⟩ := leftShift_normalises h0 h2
    exact .inr ⟨_, ha, hb, h2, hc, hd, by
      rw [normalizeSig, if_neg h0, if_neg h1', if_pos (by simpa [Config.hidden] using h2)]⟩
  · exact .inl ⟨by omega, by omega, by
      rw [normalizeSig, if_neg h0, if_neg h1', if_neg (by simpa [Config.hidden] using h2)]⟩

/-- NORM faults exactly on 0 (R136). -/
theorem normalizeSig_error_iff (sum : U54) (e : U11) (f : Fault) :
    normalizeSig sum e = .error f ↔ f = .zeroSum ∧ sum.toNat = 0 := by
  rcases normalizeSig_cases sum e with ⟨h, hn⟩ | ⟨h, hn⟩ | ⟨h, _, hn⟩ | ⟨k, _, _, _, h, _, hn⟩ <;> rw [hn]
  · simp [h, eq_comm]
  · simp; omega
  · simp; omega
  · have : sum.toNat ≠ 0 := fun h0 => by rw [h0] at h; simp at h
    simp [this]

@[simp] theorem normOut_zeroSum (s : Nat) (e : Int) : (normOut s e).zeroSum = 0 := rfl
@[simp] theorem normOut_expWrap (s : Nat) (e : Int) : (normOut s e).expWrap = expWrapOf e := rfl
@[simp] theorem normOut_normExp (s : Nat) (e : Int) : (normOut s e).normExp = maskN 11 e := rfl

/-- The leading bit is stripped (R138). -/
theorem normOut_normMan {s : Nat} (e : Int) (h : 2 ^ 52 ≤ s) (h' : s < 2 ^ 53) :
    (normOut s e).normMan.toNat = s - 2 ^ 52 := by
  simp only [normOut, Config.hidden, BitVec.toNat_ofNat]; omega

/-- The exponent is masked to 11 bits (R134). -/
theorem maskN_toNat (e : Int) : ((maskN 11 e).toNat : Int) = e % 2 ^ 11 := by
  simp [maskN, BitVec.toNat_ofInt]; omega

/-- The outcome of an addition in terms of the ordered operands (R150): which significand is formed, and that its
only fault is the complete cancellation (R124, R182). -/
theorem addFields_spec (A B : FieldTriple) : ∃ L R o, AlignedAs A B L R o ∧ ∃ sum : U54,
    (L.sign = R.sign → sum.toNat = o.sigL.toNat + o.sigR.toNat)
    ∧ (L.sign ≠ R.sign → sum.toNat = o.sigL.toNat - o.sigR.toNat)
    ∧ addFields A B = match normalizeSig sum L.exponent with
        | .error f => .error f
        | .ok n => .ok (⟨L.sign, n.normExp, n.normMan⟩, n.expWrap) := by
  obtain ⟨L, R, h⟩ := align_spec A B
  refine ⟨L, R, align A B, h, ?_⟩
  by_cases hs : L.sign = R.sign
  · refine ⟨_, fun _ => combine_sum_toNat _ _, fun h' => absurd hs h', ?_⟩
    rw [addFields, (h.effSub.trans ((effSubOf_eq_zero L R).2 hs)), combine_add, h.resExp, h.resSign]
    all_goals rfl
  · have h1 : (align A B).effSub = 1 := by
      rw [h.effSub]
      exact (u1_cases _).resolve_left fun h0 => hs ((effSubOf_eq_zero L R).1 h0)
    refine ⟨_, fun h' => absurd h' hs, fun _ => combine_diff_toNat _ _, ?_⟩
    rw [addFields, h1, combine_sub h.sigR_le_sigL, h.resExp, h.resSign]
    all_goals rfl

/-- R124, R182: the one fault of an addition, and exactly when. -/
theorem addFields_error_iff (A B : FieldTriple) (f : Fault) :
    addFields A B = .error f ↔
      f = .zeroSum ∧ A.exponent = B.exponent ∧ A.mantissa = B.mantissa ∧ A.sign ≠ B.sign := by
  obtain ⟨L, R, o, h, sum, hadd, hsub, he⟩ := addFields_spec A B
  have hl := h.sigL
  have hle := h.sigR_le_sigL
  have heq := h.sigL_eq_sigR_iff
  have hzero : sum.toNat = 0 ↔ L.sign ≠ R.sign ∧ R.exponent = L.exponent ∧ R.mantissa = L.mantissa := by
    rw [← heq]
    by_cases hs : L.sign = R.sign
    · have := hadd hs; simp [hs]; omega
    · have := hsub hs; simp [hs]; omega
  have hf : addFields A B = .error f ↔ f = .zeroSum ∧ sum.toNat = 0 := by
    rw [he, ← normalizeSig_error_iff sum L.exponent f]
    cases normalizeSig sum L.exponent <;> simp
  rw [hf, hzero]
  rcases h.order with ⟨_, rfl, rfl⟩ | ⟨_, rfl, rfl⟩
  · exact ⟨fun ⟨a, b, c, d⟩ => ⟨a, c.symm, d.symm, b⟩, fun ⟨a, b, c, d⟩ => ⟨a, d, b.symm, c.symm⟩⟩
  · exact ⟨fun ⟨a, b, c, d⟩ => ⟨a, c, d, b.symm⟩, fun ⟨a, b, c, d⟩ => ⟨a, d.symm, b, c⟩⟩

end Sys2Proof.Machine
end

