-- ==== Sys2Proof/Laws/State.lean ====
section
/-! SUPPORT. What each update of the state writes, field by field. -/

namespace Sys2Proof.Machine

variable (s : State)

@[simp] theorem drive_inp (o : Outputs) : (s.drive o).inp = s.inp := rfl
@[simp] theorem drive_out (o : Outputs) : (s.drive o).out = o := rfl
@[simp] theorem drive_fault (o : Outputs) : (s.drive o).fault = none := rfl
@[simp] theorem drive_freeIndex (o : Outputs) : (s.drive o).freeIndex = s.freeIndex := rfl

@[simp] theorem raise_inp (f : Fault) (o : Outputs) : (s.raise f o).inp = s.inp := rfl
@[simp] theorem raise_out (f : Fault) (o : Outputs) : (s.raise f o).out = o := rfl
@[simp] theorem raise_fault (f : Fault) (o : Outputs) : (s.raise f o).fault = some f := rfl
@[simp] theorem raise_freeIndex (f : Fault) (o : Outputs) :
    (s.raise f o).freeIndex = s.freeIndex + 1 := rfl

@[simp] theorem driveTop_inp (op : U2) (a b : BitPattern) :
    (s.driveTop op a b).inp = { s.inp with path := .topUnit, op := op, a := a, b := b } := rfl
@[simp] theorem driveTop_out (op : U2) (a b : BitPattern) : (s.driveTop op a b).out = s.out := rfl
@[simp] theorem driveTop_fault (op : U2) (a b : BitPattern) : (s.driveTop op a b).fault = s.fault := rfl
@[simp] theorem driveTop_freeIndex (op : U2) (a b : BitPattern) :
    (s.driveTop op a b).freeIndex = s.freeIndex := rfl

@[simp] theorem driveDecomp_inp (p : BitPattern) :
    (s.driveDecomp p).inp = { s.inp with path := .decompPath, pattern := p } := rfl
@[simp] theorem driveDecomp_out (p : BitPattern) : (s.driveDecomp p).out = s.out := rfl
@[simp] theorem driveDecomp_fault (p : BitPattern) : (s.driveDecomp p).fault = s.fault := rfl
@[simp] theorem driveDecomp_freeIndex (p : BitPattern) : (s.driveDecomp p).freeIndex = s.freeIndex := rfl

@[simp] theorem driveNegf_inp (f : FieldTriple) :
    (s.driveNegf f).inp = { s.inp with path := .negfPath, negIn := f } := rfl
@[simp] theorem driveNegf_out (f : FieldTriple) : (s.driveNegf f).out = s.out := rfl
@[simp] theorem driveNegf_fault (f : FieldTriple) : (s.driveNegf f).fault = s.fault := rfl
@[simp] theorem driveNegf_freeIndex (f : FieldTriple) : (s.driveNegf f).freeIndex = s.freeIndex := rfl

@[simp] theorem driveReasm_inp (f : FieldTriple) :
    (s.driveReasm f).inp = { s.inp with path := .reassembler, reasmIn := f } := rfl
@[simp] theorem driveReasm_out (f : FieldTriple) : (s.driveReasm f).out = s.out := rfl
@[simp] theorem driveReasm_fault (f : FieldTriple) : (s.driveReasm f).fault = s.fault := rfl
@[simp] theorem driveReasm_freeIndex (f : FieldTriple) : (s.driveReasm f).freeIndex = s.freeIndex := rfl

@[simp] theorem driveAlign_inp (A B : FieldTriple) :
    (s.driveAlign A B).inp = { s.inp with path := .aligner, alignA := A, alignB := B } := rfl
@[simp] theorem driveAlign_out (A B : FieldTriple) : (s.driveAlign A B).out = s.out := rfl
@[simp] theorem driveAlign_fault (A B : FieldTriple) : (s.driveAlign A B).fault = s.fault := rfl
@[simp] theorem driveAlign_freeIndex (A B : FieldTriple) : (s.driveAlign A B).freeIndex = s.freeIndex := rfl

@[simp] theorem driveCombine_inp (l r : U53) (e : U1) :
    (s.driveCombine l r e).inp = { s.inp with path := .combiner, sigL := l, sigR := r, effSub := e } := rfl
@[simp] theorem driveCombine_out (l r : U53) (e : U1) : (s.driveCombine l r e).out = s.out := rfl
@[simp] theorem driveCombine_fault (l r : U53) (e : U1) : (s.driveCombine l r e).fault = s.fault := rfl
@[simp] theorem driveCombine_freeIndex (l r : U53) (e : U1) :
    (s.driveCombine l r e).freeIndex = s.freeIndex := rfl

@[simp] theorem driveNorm_inp (m : U54) (e : U11) :
    (s.driveNorm m e).inp = { s.inp with path := .normalizer, mantissaSum := m, expIn := e } := rfl
@[simp] theorem driveNorm_out (m : U54) (e : U11) : (s.driveNorm m e).out = s.out := rfl
@[simp] theorem driveNorm_fault (m : U54) (e : U11) : (s.driveNorm m e).fault = s.fault := rfl
@[simp] theorem driveNorm_freeIndex (m : U54) (e : U11) : (s.driveNorm m e).freeIndex = s.freeIndex := rfl

@[simp] theorem driveDecode_inp (f : FieldTriple) :
    (s.driveDecode f).inp = { s.inp with path := .reference, decodeIn := f } := rfl
@[simp] theorem driveDecode_out (f : FieldTriple) : (s.driveDecode f).out = s.out := rfl
@[simp] theorem driveDecode_fault (f : FieldTriple) : (s.driveDecode f).fault = s.fault := rfl
@[simp] theorem driveDecode_freeIndex (f : FieldTriple) : (s.driveDecode f).freeIndex = s.freeIndex := rfl

/-- Presenting a request touches the inputs only. -/
@[simp] theorem present_out (r : Request) : (s.present r).out = s.out := by
  unfold State.present; split <;> rfl
@[simp] theorem present_fault (r : Request) : (s.present r).fault = s.fault := by
  unfold State.present; split <;> rfl
@[simp] theorem present_freeIndex (r : Request) : (s.present r).freeIndex = s.freeIndex := by
  unfold State.present; split <;> rfl

/-- Storing a table word touches the inputs only. -/
@[simp] theorem withFetchWord_out (n w : Nat) : (s.withFetchWord n w).out = s.out := by
  unfold State.withFetchWord; split <;> simp
@[simp] theorem withFetchWord_fault (n w : Nat) : (s.withFetchWord n w).fault = s.fault := by
  unfold State.withFetchWord; split <;> simp
@[simp] theorem withFetchWord_freeIndex (n w : Nat) : (s.withFetchWord n w).freeIndex = s.freeIndex := by
  unfold State.withFetchWord; split <;> simp

/-- The outcome of an addition drives a result or raises its fault. -/
@[simp] theorem driveSum_ok (f : FieldTriple) (w : U1) :
    s.driveSum (.ok (f, w)) = s.drive (.top (topResult (reassemble f) (statusOf w 0 0))) := rfl
@[simp] theorem driveSum_error (f : Fault) :
    s.driveSum (.error f) = s.raise f (.top (topAfterFault f s.freeIndex)) := rfl
@[simp] theorem driveSum_inp (r : Except Fault SumResult) : (s.driveSum r).inp = s.inp := by
  cases r <;> rfl

end Sys2Proof.Machine
end

