-- ==== Sys2Proof/Laws/Exec.lean ====
section
/-! SUPPORT. What each operation answers: one equation per meaning, and per outcome where it has two. -/

namespace Sys2Proof.Machine

variable (s : State)

@[simp] theorem exec_decomp : exec .decomp s = .next (s.drive (.decomp (decompose s.inp.pattern))) := rfl
@[simp] theorem exec_decode : exec .decode s = .next (s.drive (.decode (val s.inp.decodeIn))) := rfl
@[simp] theorem exec_reasm : exec .reasm s = .next (s.drive (.reasm (reassemble s.inp.reasmIn))) := rfl
@[simp] theorem exec_negf : exec .negf s = .next (s.drive (.negf (negate s.inp.negIn))) := rfl
@[simp] theorem exec_align :
    exec .align s = .next (s.drive (.align (align s.inp.alignA s.inp.alignB))) := rfl
@[simp] theorem exec_fadd :
    exec .fadd s = .next (s.driveSum (addFields (decompose s.inp.a) (decompose s.inp.b))) := rfl
@[simp] theorem exec_fsub :
    exec .fsub s = .next (s.driveSum (addFields (decompose s.inp.a) (negate (decompose s.inp.b)))) := rfl
@[simp] theorem exec_fneg :
    exec .fneg s = .next (s.drive (.top (topResult (s.inp.a ^^^ 0x8000000000000000#64) 0))) := rfl
@[simp] theorem exec_fcmpeq : exec .fcmpeq s =
    .next (s.drive (.top (topResult (truthPattern (decide (s.inp.a = s.inp.b))) 0))) := rfl

variable {s}

theorem exec_combine_ok {o : CombineOut} (h : combine s.inp.sigL s.inp.sigR s.inp.effSub = .ok o) :
    exec .combine s = .next (s.drive (.combine o)) := by
  show execCombine s = _
  rw [execCombine, h]

theorem exec_combine_error {f : Fault} (h : combine s.inp.sigL s.inp.sigR s.inp.effSub = .error f) :
    exec .combine s = .next (s.raise f (.combine ⟨Config.freeMantissaSum s.freeIndex, 1⟩)) := by
  show execCombine s = _
  rw [execCombine, h]

theorem exec_norm_ok {o : NormOut} (h : normalizeSig s.inp.mantissaSum s.inp.expIn = .ok o) :
    exec .norm s = .next (s.drive (.norm o)) := by
  show execNorm s = _
  rw [execNorm, h]

theorem exec_norm_error {f : Fault} (h : normalizeSig s.inp.mantissaSum s.inp.expIn = .error f) :
    exec .norm s = .next (s.raise f (.norm ⟨Config.freeNormMan s.freeIndex, Config.freeNormExp s.freeIndex, 1,
      Config.freeExpWrap s.freeIndex⟩)) := by
  show execNorm s = _
  rw [execNorm, h]

end Sys2Proof.Machine
end

