-- ==== Sys2Proof/Laws/PerInstr.lean ====
section
/-! SUPPORT. The per-instruction family `SelectWidth`: the request of every operation carries exactly the select wires
its path has, and names the unit of R67 (R68). -/

namespace Sys2Proof.Laws.SelectWidth

/-- R68: two select wires for the four operations of the top unit, none for the others. -/
abbrev Statement (i : Instr) : Prop :=
  (encode i).wellFormed = true ∧ (encode i).path = i.path
    ∧ ((encode i).select.length = 2 ↔ (encodeOp i).isSome = true)

theorem decomp : Statement .decomp := by decide
theorem decode : Statement .decode := by decide
theorem reasm : Statement .reasm := by decide
theorem negf : Statement .negf := by decide
theorem align : Statement .align := by decide
theorem combine : Statement .combine := by decide
theorem norm : Statement .norm := by decide
theorem fadd : Statement .fadd := by decide
theorem fsub : Statement .fsub := by decide
theorem fneg : Statement .fneg := by decide
theorem fcmpeq : Statement .fcmpeq := by decide

end Sys2Proof.Laws.SelectWidth
end

