-- ==== Sys2Proof/Tests/Slice0.lean ====
section
/-! SUPPORT. Tests of one evaluation each, with expected values from spec/95_test_vectors.md (the vector is named), the
smoke tests of the checks, and for every statement with hypotheses a witness that meets them. -/

namespace Sys2Proof.Tests.Slice0

open Sys2Proof Sys2Proof.Machine

/-- The state an outcome leads to (every outcome here is a next state). -/
def after (o : Host.Outcome State Fault Refusal) : State :=
  match o with
  | .next t => t
  | _       => State.reset

/-- What one evaluation shows: the outputs, and the fault if any. -/
def shown (s : State) : Outputs × Option Fault :=
  ((after (step s)).out, (after (step s)).fault)

/-- The power-up state, on which a test drives its inputs. -/
abbrev s0 : State := State.reset

/-! Checks and decoding: R67's codes, R68's widths. -/

theorem test_topUnit_needs_two_wires :
    Request.wellFormed ⟨.topUnit, []⟩ = false ∧ Request.wellFormed ⟨.topUnit, [true]⟩ = false
      ∧ Request.wellFormed ⟨.topUnit, [true, false, false]⟩ = false
      ∧ decode ⟨.topUnit, [true]⟩ = .error .selectNotTwoWires := by decide
theorem test_fixed_function_has_no_wire :
    Request.wellFormed ⟨.aligner, [false]⟩ = false ∧ decode ⟨.aligner, [false]⟩ = .error .pathHasNoSelect := by decide
theorem test_decode_top_words :
    decodeTableWord 8 0b00 = some .fadd ∧ decodeTableWord 8 0b01 = some .fsub
      ∧ decodeTableWord 8 0b10 = some .fneg ∧ decodeTableWord 8 0b11 = some .fcmpeq
      ∧ decodeTableWord 8 0b100 = none ∧ decodeTableWord 0 0 = none := by decide
theorem test_decode_wires :
    decode ⟨.topUnit, [true, false]⟩ = .ok .fsub ∧ decode ⟨.topUnit, [false, true]⟩ = .ok .fneg
      ∧ decode ⟨.decompPath, []⟩ = .ok .decomp ∧ decode ⟨.negfPath, []⟩ = .ok .negf
      ∧ decode ⟨.reassembler, []⟩ = .ok .reasm ∧ decode ⟨.aligner, []⟩ = .ok .align
      ∧ decode ⟨.combiner, []⟩ = .ok .combine ∧ decode ⟨.normalizer, []⟩ = .ok .norm
      ∧ decode ⟨.reference, []⟩ = .ok .decode := by decide

/-! Operations. -/

/-- VD4. -/
theorem test_decomp_minus_2_5 :
    shown (s0.driveDecomp 0xC004000000000000) = (.decomp ⟨1, 1024, 0x4000000000000⟩, none) := by decide
/-- VD15: all ones. -/
theorem test_decomp_all_ones :
    shown (s0.driveDecomp 0xFFFFFFFFFFFFFFFF) = (.decomp ⟨1, 2047, 0xFFFFFFFFFFFFF⟩, none) := by decide
/-- VD4, the last column: the value is −2.5. -/
theorem test_decode_minus_2_5 :
    shown (s0.driveDecode ⟨1, 1024, 0x4000000000000⟩) = (.decode (-5 / 2), none) := by
  have h : val ⟨1, 1024, 0x4000000000000⟩ = -5 / 2 := by
    simp [val]; norm_num
  show (Outputs.decode (val ⟨1, 1024, 0x4000000000000⟩), (none : Option Fault)) = _
  rw [h]
/-- VD1: exponent code 0 is read as if normalised, `2^−1023`. -/
theorem test_decode_zero_pattern :
    shown (s0.driveDecode ⟨0, 0, 0⟩) = (.decode (2 ^ (-1023 : Int)), none) := by
  have h : val ⟨0, 0, 0⟩ = 2 ^ (-1023 : Int) := by simp [val]
  show (Outputs.decode (val ⟨0, 0, 0⟩), (none : Option Fault)) = _
  rw [h]
/-- VD16 read right to left. -/
theorem test_reasm_mixed :
    shown (s0.driveReasm ⟨0, 18, 0x3456789ABCDEF⟩) = (.reasm 0x0123456789ABCDEF, none) := by decide
/-- VR2. -/
theorem test_reasm_all_ones :
    shown (s0.driveReasm ⟨1, 2047, 0xFFFFFFFFFFFFF⟩) = (.reasm 0xFFFFFFFFFFFFFFFF, none) := by decide
/-- VG2. -/
theorem test_negf_zero_exponent :
    shown (s0.driveNegf ⟨1, 0, 1⟩) = (.negf ⟨0, 0, 1⟩, none) := by decide
/-- VG1. -/
theorem test_negf_positive :
    shown (s0.driveNegf ⟨0, 1023, 0⟩) = (.negf ⟨1, 1023, 0⟩, none) := by decide
/-- VA6: the second operand is the larger. -/
theorem test_align_swaps :
    shown (s0.driveAlign ⟨0, 1019, 0x999999999999A⟩ ⟨0, 1020, 0x999999999999A⟩)
      = (.align ⟨1, 0, 1020, 0, 1, 0x1999999999999A, 0x0CCCCCCCCCCCCD⟩, none) := by decide
/-- VA14: a shift by 64 gives 0, not the unshifted value. -/
theorem test_align_shift_64 :
    shown (s0.driveAlign ⟨0, 1023, 0⟩ ⟨0, 959, 0xFFFFFFFFFFFFF⟩)
      = (.align ⟨0, 0, 1023, 0, 64, 0x10000000000000, 0⟩, none) := by decide
/-- VC2: the largest sum needs bit 53. -/
theorem test_combine_largest_sum :
    shown (s0.driveCombine 0x1FFFFFFFFFFFFF 0x1FFFFFFFFFFFFF 0) = (.combine ⟨0x3FFFFFFFFFFFFE, 0⟩, none) := by decide
/-- VC11: the fault, with its bit at 1. -/
theorem test_combine_borrow :
    (after (step (s0.driveCombine 0x10000000000000 0x10000000000001 1))).fault = some .borrow
      ∧ (match (after (step (s0.driveCombine 0x10000000000000 0x10000000000001 1))).out with
          | .combine o => o.borrow
          | _ => 0) = 1 := by decide
/-- VN10: the lowest exponent, −52, wraps to 1996. -/
theorem test_norm_lowest_exponent :
    shown (s0.driveNorm 0x00000000000001 0) = (.norm ⟨0, 1996, 0, 1⟩, none) := by decide
/-- VN6: a carry at exponent 2047 wraps to 0. -/
theorem test_norm_carry_wraps :
    shown (s0.driveNorm 0x20000000000000 2047) = (.norm ⟨0, 0, 0, 1⟩, none) := by decide
/-- VF10: 0.1 + 0.2 truncates. -/
theorem test_fadd_tenth_and_fifth :
    shown (s0.driveTop 0b00 0x3FB999999999999A 0x3FC999999999999A)
      = (.top ⟨0x3FD3333333333333, 0, 1021, 0x3333333333333, 0b000⟩, none) := by decide
/-- VF14: 1 + −1 raises `ZeroSum`, and the machine goes on. -/
theorem test_fadd_cancels :
    (after (step (s0.driveTop 0b00 0x3FF0000000000000 0xBFF0000000000000))).result = .error .zeroSum := by decide
/-- VS8: the worst relative error. -/
theorem test_fsub_neighbours :
    shown (s0.driveTop 0b01 0x4000000000000000 0x3FFFFFFFFFFFFFFF)
      = (.top ⟨0x3CC0000000000000, 0, 972, 0, 0b000⟩, none) := by decide
/-- VS12: the exponent wraps, which is a flag and no fault. -/
theorem test_fsub_exponent_wraps :
    shown (s0.driveTop 0b01 0x0010000000000001 0x0010000000000000)
      = (.top ⟨0x7CD0000000000000, 0, 1997, 0, 0b100⟩, none) := by decide
/-- VG9: `b` is ignored. -/
theorem test_fneg_ignores_b :
    shown (s0.driveTop 0b10 0x3FF0000000000000 0xDEADBEEFDEADBEEF)
      = (.top ⟨0xBFF0000000000000, 1, 1023, 0, 0b000⟩, none) := by decide
/-- VG8. -/
theorem test_fneg_all_ones :
    shown (s0.driveTop 0b10 0xFFFFFFFFFFFFFFFF 0)
      = (.top ⟨0x7FFFFFFFFFFFFFFF, 0, 2047, 0xFFFFFFFFFFFFF, 0b000⟩, none) := by decide
/-- VQ4: a NaN pattern equals itself. -/
theorem test_fcmpeq_nan_pattern :
    shown (s0.driveTop 0b11 0x7FF8000000000000 0x7FF8000000000000) = (.top ⟨1, 0, 0, 1, 0b000⟩, none) := by decide
/-- VQ3: the two zero patterns differ. -/
theorem test_fcmpeq_zero_patterns :
    shown (s0.driveTop 0b11 0x0000000000000000 0x8000000000000000) = (.top ⟨0, 0, 0, 0, 0b000⟩, none) := by decide

/-! Witnesses: concrete states that meet the hypotheses of each statement, one for each clause at a boundary. -/

/-- StepRunsTheDecodedOperation. -/
theorem witness_decoded_request : decode s0.request = .ok .fadd := by decide
/-- StoredTableWordRunsNext, both ends of the range. -/
theorem witness_table_word : decodeTableWord 8 0 = some .fadd ∧ decodeTableWord 8 3 = some .fcmpeq := by decide
/-- AlignLargeShiftsClear: VA9 for 53, VA8 for 52. -/
theorem witness_align_shift_53_and_52 :
    (∃ t o, exec .align (s0.driveAlign ⟨0, 1023, 0⟩ ⟨0, 970, 0⟩) = .next t ∧ t.out = .align o ∧ o.delta = 53)
    ∧ ∃ t o, exec .align (s0.driveAlign ⟨0, 1023, 0⟩ ⟨0, 971, 0⟩) = .next t ∧ t.out = .align o ∧ o.delta = 52 :=
  ⟨⟨_, _, rfl, rfl, by decide⟩, ⟨_, _, rfl, rfl, by decide⟩⟩
/-- AlignKeepsTheLargerOnTop: an equality (VA4) and a strict case (VA17). -/
theorem witness_align_order :
    (∃ t o, exec .align (s0.driveAlign ⟨0, 1023, 0⟩ ⟨1, 1023, 0⟩) = .next t ∧ t.out = .align o ∧ o.sigL = o.sigR)
    ∧ ∃ t o, exec .align (s0.driveAlign ⟨0, 1024, 0⟩ ⟨1, 1023, 0xFFFFFFFFFFFFF⟩) = .next t ∧ t.out = .align o
        ∧ o.sigL ≠ o.sigR :=
  ⟨⟨_, _, rfl, rfl, by decide⟩, ⟨_, _, rfl, rfl, by decide⟩⟩
/-- AlignTruncatesBelowOneUnit: with a swap (VA6) and without (VA7), one exact and one lossy. -/
theorem witness_align_truncation :
    (∃ t o, exec .align (s0.driveAlign ⟨0, 1019, 0x999999999999A⟩ ⟨0, 1020, 0x999999999999A⟩) = .next t
      ∧ t.out = .align o ∧ o.swap = 1 ∧ 0x1999999999999A = o.sigR.toNat * 2 ^ o.delta.toNat)
    ∧ ∃ t o, exec .align (s0.driveAlign ⟨0, 1018, 0x851EB851EB852⟩ ⟨0, 1012, 0x3A92A30553261⟩) = .next t
      ∧ t.out = .align o ∧ o.swap = 0 ∧ 0x13A92A30553261 ≠ o.sigR.toNat * 2 ^ o.delta.toNat :=
  ⟨⟨_, _, rfl, rfl, by decide⟩, ⟨_, _, rfl, rfl, by decide⟩⟩
/-- AlignSymmetry: magnitudes different (VA2, VA3) and equal with different signs (VA4, VA5). -/
theorem witness_align_symmetry :
    (∃ t u o p, exec .align (s0.driveAlign ⟨0, 1023, 0⟩ ⟨0, 1023, 0x8000000000000⟩) = .next t ∧ t.out = .align o
      ∧ exec .align (s0.driveAlign ⟨0, 1023, 0x8000000000000⟩ ⟨0, 1023, 0⟩) = .next u ∧ u.out = .align p
      ∧ rankOf ⟨0, 1023, 0⟩ ≠ rankOf ⟨0, 1023, 0x8000000000000⟩ ∧ o.swap = 1 ∧ p.swap = 0)
    ∧ ∃ t u o p, exec .align (s0.driveAlign ⟨0, 1023, 0⟩ ⟨1, 1023, 0⟩) = .next t ∧ t.out = .align o
      ∧ exec .align (s0.driveAlign ⟨1, 1023, 0⟩ ⟨0, 1023, 0⟩) = .next u ∧ u.out = .align p
      ∧ rankOf ⟨0, 1023, 0⟩ = rankOf ⟨1, 1023, 0⟩ ∧ o.resSign = 0 ∧ p.resSign = 1 :=
  ⟨⟨_, _, _, _, rfl, rfl, rfl, rfl, by decide⟩, ⟨_, _, _, _, rfl, rfl, rfl, rfl, by decide⟩⟩
/-- CombineAddsOrSubtractsExactly: an addition, and a subtraction at the boundary (VC5). -/
theorem witness_combine_completes :
    (s0.driveCombine 1 2 0).inp.effSub = 0
    ∧ (s0.driveCombine 0x10000000000000 0x10000000000000 1).inp.effSub = 1
    ∧ (s0.driveCombine 0x10000000000000 0x10000000000000 1).inp.sigR.toNat
        ≤ (s0.driveCombine 0x10000000000000 0x10000000000000 1).inp.sigL.toNat := by decide
/-- CombineUnderflowRaisesBorrow, at the boundary (VC11). -/
theorem witness_combine_underflow :
    (s0.driveCombine 0x10000000000000 0x10000000000001 1).inp.effSub = 1
    ∧ (s0.driveCombine 0x10000000000000 0x10000000000001 1).inp.sigL.toNat
        < (s0.driveCombine 0x10000000000000 0x10000000000001 1).inp.sigR.toNat := by decide

/-- ALIGN of two triples, and COMBINE driven with its outputs. -/
def aligned (A B : FieldTriple) : State := after (exec .align (s0.driveAlign A B))
/-- See `aligned`. -/
def combined (A B : FieldTriple) : State :=
  after (exec .combine ((aligned A B).driveCombine (align A B).sigL (align A B).sigR (align A B).effSub))

/-- BorrowUnreachableInTheTopUnit and CombineRangeInsideAddition: the premises hold together for ANY two triples. -/
theorem witness_combine_after_align (A B : FieldTriple) :
    ∃ c, exec .align (s0.driveAlign A B) = .next (aligned A B) ∧ (aligned A B).out = .align (align A B)
      ∧ exec .combine ((aligned A B).driveCombine (align A B).sigL (align A B).sigR (align A B).effSub)
          = .next (combined A B) ∧ (combined A B).out = .combine c := by
  unfold combined
  cases h : combine (align A B).sigL (align A B).sigR (align A B).effSub with
  | ok o => exact ⟨_, rfl, rfl, by rw [exec_combine_ok (o := o) h]; rfl, by rw [exec_combine_ok (o := o) h]; rfl⟩
  | error f => exact ⟨_, rfl, rfl, by rw [exec_combine_error (f := f) h]; rfl,
      by rw [exec_combine_error (f := f) h]; rfl⟩
/-- CombineRangeInsideAddition, its clauses: an addition; a difference with `delta` 0 that cancels, and one that does
not; a difference with `delta` 1, and 2. -/
theorem witness_combine_range_clauses :
    (align ⟨0, 5, 0⟩ ⟨0, 5, 0⟩).effSub = 0
    ∧ (align ⟨0, 5, 7⟩ ⟨1, 5, 7⟩).effSub = 1 ∧ (align ⟨0, 5, 7⟩ ⟨1, 5, 7⟩).delta = 0
    ∧ (combined ⟨0, 5, 7⟩ ⟨1, 5, 7⟩).out = .combine ⟨0, 0⟩
    ∧ (align ⟨0, 5, 7⟩ ⟨1, 5, 6⟩).delta = 0 ∧ (combined ⟨0, 5, 7⟩ ⟨1, 5, 6⟩).out = .combine ⟨1, 0⟩
    ∧ (align ⟨0, 6, 0⟩ ⟨1, 5, 0xFFFFFFFFFFFFF⟩).delta = 1
    ∧ (combined ⟨0, 6, 0⟩ ⟨1, 5, 0xFFFFFFFFFFFFF⟩).out = .combine ⟨1, 0⟩
    ∧ (align ⟨0, 7, 0⟩ ⟨1, 5, 0xFFFFFFFFFFFFF⟩).delta = 2
    ∧ (combined ⟨0, 7, 0⟩ ⟨1, 5, 0xFFFFFFFFFFFFF⟩).out = .combine ⟨0x8000000000001, 0⟩ := by decide
/-- NormShiftsIntoRange and NormIsTheTwoLoops: the smallest significand and the largest (VN10, VN4). -/
theorem witness_norm_completes :
    (s0.driveNorm 1 0).inp.mantissaSum ≠ 0 ∧ resultExp 0 1 = -52
    ∧ (s0.driveNorm 0x3FFFFFFFFFFFFF 2047).inp.mantissaSum ≠ 0 ∧ resultExp 2047 0x3FFFFFFFFFFFFF = 2048 := by decide
/-- NormZeroSumExactlyOnZero (VN20). -/
theorem witness_norm_zero :
    (s0.driveNorm 0 1023).inp.mantissaSum = 0 ∧ ∃ t, exec .norm (s0.driveNorm 0 1023) = .next t ∧ t.fault ≠ none :=
  ⟨rfl, _, rfl, by decide⟩
/-- NormPreservesTheValue and NormWrapOnlyAtTheEnds: a carry that wraps, a left shift that wraps, and neither. -/
theorem witness_norm_clean :
    (∃ t o, exec .norm (s0.driveNorm 0x20000000000000 2047) = .next t ∧ t.out = .norm o ∧ t.fault = none
      ∧ o.expWrap = 1)
    ∧ (∃ t o, exec .norm (s0.driveNorm 1 51) = .next t ∧ t.out = .norm o ∧ t.fault = none ∧ o.expWrap = 1)
    ∧ ∃ t o, exec .norm (s0.driveNorm 1 52) = .next t ∧ t.out = .norm o ∧ t.fault = none ∧ o.expWrap = 0 :=
  ⟨⟨_, _, rfl, rfl, by decide⟩, ⟨_, _, rfl, rfl, by decide⟩, ⟨_, _, rfl, rfl, by decide⟩⟩
/-- FaddIsTruncatingFieldAddition, FsubIsTruncatingFieldSubtraction: operands that do not cancel, with equal magnitudes
(same signs), and operands of FSUB that differ in one bit. -/
theorem witness_top_completes :
    ¬ cancels 0x3FF0000000000000 0x3FF0000000000000
    ∧ (0x3FF0000000000000 : BitPattern) ≠ 0x3FF0000000000001 := by decide
/-- ZeroSumExactlyOnCancellation, each premise. -/
theorem witness_top_cancels :
    cancels 0x3FF0000000000000 0xBFF0000000000000
    ∧ (after (exec .fadd (s0.driveTop 0b00 0x3FF0000000000000 0xBFF0000000000000))).fault ≠ none
    ∧ (after (exec .fsub (s0.driveTop 0b01 0x3FF0000000000000 0x3FF0000000000000))).fault ≠ none := by decide

/-- The states of TopUnitIsTheWiringOfTheUnits, for program P4 (line 1 to 7), with FADD or FSUB. -/
def wired (sub : Bool) : List State :=
  let a : BitPattern := 0x3FA851EB851EB852
  let b : BitPattern := 0x3F43A92A30553261
  let B := if sub then negate (decompose b) else decompose b
  let al := align (decompose a) B
  let t1 := after (exec .decomp (s0.driveDecomp a))
  let t2 := after (exec .decomp (t1.driveDecomp b))
  let t3 := after (exec .negf (t2.driveNegf (decompose b)))
  let t4 := after (exec .align (t3.driveAlign (decompose a) B))
  let t5 := after (exec .combine (t4.driveCombine al.sigL al.sigR al.effSub))
  let m : U54 := if sub then 0x180346DC5D6389 else 0x18A0902DE00D1B
  let t6 := after (exec .norm (t5.driveNorm m al.resExp))
  let man : U52 := if sub then 0x80346DC5D6389 else 0x8A0902DE00D1B
  let t7 := after (exec .reasm (t6.driveReasm ⟨al.resSign, 1018, man⟩))
  let t8 := after (exec (if sub then .fsub else .fadd) (t7.driveTop (if sub then 0b01 else 0b00) a b))
  [t1, t2, t3, t4, t5, t6, t7, t8]

/-- TopUnitIsTheWiringOfTheUnits: P4 and S4 of spec/95_test_vectors.md, every intermediate output as listed there. -/
theorem witness_wiring :
    (wired false).map (·.out) =
      [.decomp ⟨0, 1018, 0x851EB851EB852⟩, .decomp ⟨0, 1012, 0x3A92A30553261⟩, .negf ⟨1, 1012, 0x3A92A30553261⟩,
       .align ⟨0, 0, 1018, 0, 6, 0x1851EB851EB852, 0x004EA4A8C154C9⟩, .combine ⟨0x18A0902DE00D1B, 0⟩,
       .norm ⟨0x8A0902DE00D1B, 1018, 0, 0⟩, .reasm 0x3FA8A0902DE00D1B,
       .top ⟨0x3FA8A0902DE00D1B, 0, 1018, 0x8A0902DE00D1B, 0⟩]
    ∧ (wired true).map (·.out) =
      [.decomp ⟨0, 1018, 0x851EB851EB852⟩, .decomp ⟨0, 1012, 0x3A92A30553261⟩, .negf ⟨1, 1012, 0x3A92A30553261⟩,
       .align ⟨0, 0, 1018, 1, 6, 0x1851EB851EB852, 0x004EA4A8C154C9⟩, .combine ⟨0x180346DC5D6389, 0⟩,
       .norm ⟨0x80346DC5D6389, 1018, 0, 0⟩, .reasm 0x3FA80346DC5D6389,
       .top ⟨0x3FA80346DC5D6389, 0, 1018, 0x80346DC5D6389, 0⟩]
    ∧ (wired false).map (·.fault) = List.replicate 8 none ∧ (wired true).map (·.fault) = List.replicate 8 none := by
  decide
/-- FsubIsFaddOfFneg and FaddIsCommutativeNotAssociative: the premises hold together for ANY two patterns; here with a result and
with a fault. -/
theorem witness_fsub_as_fadd (a b : BitPattern) :
    ∃ t u v o, exec .fneg (s0.driveTop 0b10 b 0) = .next t ∧ t.out = .top o
      ∧ exec .fadd (t.driveTop 0b00 a o.y) = .next u ∧ exec .fsub (s0.driveTop 0b01 a b) = .next v :=
  ⟨_, _, _, _, rfl, rfl, rfl, rfl⟩
/-- See `witness_fsub_as_fadd`. -/
theorem witness_fadd_commutes (a b : BitPattern) :
    ∃ t u, exec .fadd (s0.driveTop 0b00 a b) = .next t ∧ exec .fadd (s0.driveTop 0b00 b a) = .next u :=
  ⟨_, _, rfl, rfl⟩
/-- NegatingOperandsNegatesTheSum (VF10) and FsubIsAntisymmetric (VS1). -/
theorem witness_negation :
    (after (exec .fadd (s0.driveTop 0b00 0x3FB999999999999A 0x3FC999999999999A))).fault = none
    ∧ (after (exec .fadd (s0.driveTop 0b00 0xBFB999999999999A 0xBFC999999999999A))).out
        = .top ⟨0xBFD3333333333333, 1, 1021, 0x3333333333333, 0⟩
    ∧ (after (exec .fsub (s0.driveTop 0b01 0x3FF8000000000000 0x3FF0000000000000))).fault = none
    ∧ (after (exec .fsub (s0.driveTop 0b01 0x3FF0000000000000 0x3FF8000000000000))).out
        = .top ⟨0xBFE0000000000000, 1, 1022, 0, 0⟩ := by decide
/-- SameSignSumTruncatesTo53Bits (VF10: a bit is lost). -/
theorem witness_same_sign_sum :
    ∃ t o, exec .fadd (s0.driveTop 0b00 0x3FB999999999999A 0x3FC999999999999A) = .next t ∧ t.out = .top o
      ∧ t.fault = none ∧ o.status = 0
      ∧ (decompose 0x3FB999999999999A).sign = (decompose 0x3FC999999999999A).sign :=
  ⟨_, topResult 0x3FD3333333333333 0, rfl, by decide, by decide⟩
/-- DifferentSignSumRoundsUpToAUnit: equal exponents (VS1 as a sum), the second operand larger (VF12), and the first
larger with `delta` 1 (VF13). -/
theorem witness_different_sign_sum :
    (∃ t o, exec .fadd (s0.driveTop 0b00 0x3FF8000000000000 0xBFF0000000000000) = .next t ∧ t.out = .top o
      ∧ t.fault = none ∧ o.status = 0
      ∧ (decompose 0x3FF8000000000000).exponent = (decompose 0xBFF0000000000000).exponent)
    ∧ (∃ t o, exec .fadd (s0.driveTop 0b00 0xBFB999999999999A 0x3FC999999999999A) = .next t ∧ t.out = .top o
      ∧ t.fault = none ∧ o.status = 0 ∧ o.ySign = (decompose 0x3FC999999999999A).sign)
    ∧ ∃ t o, exec .fadd (s0.driveTop 0b00 0x4000000000000000 0xBFFFFFFFFFFFFFFF) = .next t ∧ t.out = .top o
      ∧ t.fault = none ∧ o.status = 0 ∧ o.ySign = (decompose 0x4000000000000000).sign :=
  ⟨⟨_, topResult 0x3FE0000000000000 0, rfl, by decide, by decide⟩,
   ⟨_, topResult 0x3FB999999999999A 0, rfl, by decide, by decide⟩,
   ⟨_, topResult 0x3CC0000000000000 0, rfl, by decide, by decide⟩⟩
/-- FaddOfEqualOperandsDoubles: the wrap at exponent 2047 (VF21) and the last exponent without it (VF20). -/
theorem witness_doubling :
    shown (s0.driveTop 0b00 0x7FF0000000000000 0x7FF0000000000000) = (.top ⟨0, 0, 0, 0, 0b100⟩, none)
    ∧ shown (s0.driveTop 0b00 0x7FEFFFFFFFFFFFFF 0x7FEFFFFFFFFFFFFF)
        = (.top ⟨0x7FFFFFFFFFFFFFFF, 0, 2047, 0xFFFFFFFFFFFFF, 0⟩, none) := by decide
/-- FarSmallerOperandIsAbsorbed: VF7 and its exchange, both at the difference 53. -/
theorem witness_absorbed :
    (decompose 0x3CA0000000000000).exponent.toNat + 53 ≤ (decompose 0x3FF0000000000000).exponent.toNat
    ∧ shown (s0.driveTop 0b00 0x3CA0000000000000 0x3FF0000000000000)
        = (.top ⟨0x3FF0000000000000, 0, 1023, 0, 0⟩, none) := by decide
/-- NormalisedOperandsWrapOnlyByCancellation: VS12 as a sum. -/
theorem witness_wrap_by_cancellation :
    normalised 0x0010000000000001 ∧ normalised 0x8010000000000000
    ∧ shown (s0.driveTop 0b00 0x0010000000000001 0x8010000000000000)
        = (.top ⟨0x7CD0000000000000, 0, 1997, 0, 0b100⟩, none) := by decide
/-- FcmpeqPredictsTheFaultOfFsub, both clauses. -/
theorem witness_fcmpeq_then_fsub (a b : BitPattern) :
    ∃ t u o, exec .fcmpeq (s0.driveTop 0b11 a b) = .next t ∧ t.out = .top o
      ∧ exec .fsub (t.driveTop 0b01 a b) = .next u :=
  ⟨_, _, _, rfl, rfl, rfl⟩
/-- EvaluationsLeaveTheInputsAlone, RepeatingAStepRepeatsItsResult, EveryStepGivesLegalOutputs: a step with a result and
a step with a fault. -/
theorem witness_steps :
    (∃ t, step s0 = .next t ∧ t.fault = none)
    ∧ ∃ t, step (s0.driveTop 0b01 0 0) = .next t ∧ t.fault = some .zeroSum ∧ t.freeIndex = 1 :=
  ⟨⟨_, rfl, by decide⟩, ⟨_, rfl, by decide⟩⟩
/-- EvaluationsAreIndependent: two states that agree on the operand of FNEG and differ elsewhere. -/
theorem witness_independent :
    sameOperands .fneg (s0.driveTop 0b10 5 6).inp (s0.driveTop 0b00 5 7).inp
    ∧ s0.driveTop 0b10 5 6 ≠ s0.driveTop 0b00 5 7 := by
  refine ⟨rfl, by decide⟩

end Sys2Proof.Tests.Slice0
end

