-- ==== Sys2Proof/Proofs/Evaluate.lean ====
section
/-! PROOFS. What one evaluation computes, as a function of the inputs alone, and what `exec` makes of it: it drives the
outputs of a result, or raises the fault (R181). -/

namespace Sys2Proof.Machine

/-- The top unit's outputs for the fields and the `exp_wrap` of an addition (R150, R152). -/
def sumOutputs (r : SumResult) : Outputs :=
  .top (topResult (reassemble r.1) (statusOf r.2 0 0))

/-- The outcome of an operation on given inputs (R27, R181): its outputs, or the fault instead of them. -/
def evaluate (i : Instr) (x : Inputs) : Except Fault Outputs :=
  match i with
  | .decomp  => .ok (.decomp (decompose x.pattern))
  | .decode  => .ok (.decode (val x.decodeIn))
  | .reasm   => .ok (.reasm (reassemble x.reasmIn))
  | .negf    => .ok (.negf (negate x.negIn))
  | .align   => .ok (.align (align x.alignA x.alignB))
  | .combine => (combine x.sigL x.sigR x.effSub).map .combine
  | .norm    => (normalizeSig x.mantissaSum x.expIn).map .norm
  | .fadd    => (addFields (decompose x.a) (decompose x.b)).map sumOutputs
  | .fsub    => (addFields (decompose x.a) (negate (decompose x.b))).map sumOutputs
  | .fneg    => .ok (.top (topResult (x.a ^^^ 0x8000000000000000#64) 0))
  | .fcmpeq  => .ok (.top (topResult (truthPattern (decide (x.a = x.b))) 0))

/-- What stands on the outputs after an operation raised a fault, `n` being the index of the next free value. Only the
four operations of R180 appear. -/
inductive FaultOutputs (n : Nat) : Instr → Fault → Outputs → Prop where
  /-- R123. -/
  | combine (f : Fault) : FaultOutputs n .combine f (.combine ⟨Config.freeMantissaSum n, 1⟩)
  /-- R136. -/
  | norm (f : Fault) :
      FaultOutputs n .norm f (.norm ⟨Config.freeNormMan n, Config.freeNormExp n, 1, Config.freeExpWrap n⟩)
  /-- R152, R181. -/
  | fadd (f : Fault) : FaultOutputs n .fadd f (.top (topAfterFault f n))
  /-- R153, R181. -/
  | fsub (f : Fault) : FaultOutputs n .fsub f (.top (topAfterFault f n))

/-- The outputs are those of the operation's own unit (R60 to R65, R83). -/
def OutputsOfUnit (i : Instr) (o : Outputs) : Prop :=
  match i with
  | .decomp  => ∃ f, o = .decomp f
  | .decode  => ∃ v, o = .decode v
  | .reasm   => ∃ p, o = .reasm p
  | .negf    => ∃ f, o = .negf f
  | .align   => ∃ r, o = .align r
  | .combine => ∃ r, o = .combine r
  | .norm    => ∃ r, o = .norm r
  | .fadd    => ∃ r, o = .top r
  | .fsub    => ∃ r, o = .top r
  | .fneg    => ∃ r, o = .top r
  | .fcmpeq  => ∃ r, o = .top r

/-- A mapped outcome is a result exactly when the outcome is. -/
theorem map_eq_ok {α β : Type} {g : α → β} {r : Except Fault α} {b : β} :
    r.map g = .ok b ↔ ∃ a, r = .ok a ∧ g a = b := by
  cases r <;> simp [Except.map]

/-- A mapped outcome raises the same fault. -/
theorem map_eq_error {α β : Type} {g : α → β} {r : Except Fault α} {f : Fault} :
    r.map g = .error f ↔ r = .error f := by
  cases r <;> simp [Except.map]

variable {i : Instr} {s t : State} {x x' : Inputs} {o : Outputs} {f : Fault} {n : Nat}

theorem driveSum_of_ok {r : Except Fault SumResult} (h : r.map sumOutputs = .ok o) : s.driveSum r = s.drive o := by
  obtain ⟨p, rfl, rfl⟩ := map_eq_ok.1 h
  exact driveSum_ok s p.1 p.2

/-- Where the evaluation has a result, the operation drives it. -/
theorem exec_of_ok (h : evaluate i s.inp = .ok o) : exec i s = .next (s.drive o) := by
  cases i with
  | combine =>
    obtain ⟨c, hc, rfl⟩ := map_eq_ok.1 h
    exact exec_combine_ok hc
  | norm =>
    obtain ⟨c, hc, rfl⟩ := map_eq_ok.1 h
    exact exec_norm_ok hc
  | fadd | fsub => exact congrArg _ (driveSum_of_ok h)
  | decomp | decode | reasm | negf | align | fneg | fcmpeq =>
    cases h
    rfl

/-- Where the evaluation faults, the operation raises that fault. -/
theorem exec_of_error (h : evaluate i s.inp = .error f) :
    ∃ o, FaultOutputs s.freeIndex i f o ∧ exec i s = .next (s.raise f o) := by
  cases i with
  | combine => exact ⟨_, .combine f, exec_combine_error (map_eq_error.1 h)⟩
  | norm => exact ⟨_, .norm f, exec_norm_error (map_eq_error.1 h)⟩
  | fadd => exact ⟨_, .fadd f, by rw [exec_fadd, map_eq_error.1 h, driveSum_error]⟩
  | fsub => exact ⟨_, .fsub f, by rw [exec_fsub, map_eq_error.1 h, driveSum_error]⟩
  | decomp | decode | reasm | negf | align | fneg | fcmpeq => cases h

/-- All that an operation can do: drive the result of its evaluation, or raise its fault. -/
theorem exec_cases (h : exec i s = .next t) :
    (∃ o, evaluate i s.inp = .ok o ∧ t = s.drive o)
    ∨ ∃ f o, evaluate i s.inp = .error f ∧ FaultOutputs s.freeIndex i f o ∧ t = s.raise f o := by
  cases he : evaluate i s.inp with
  | ok o =>
    cases (exec_of_ok he).symm.trans h
    exact .inl ⟨o, rfl, rfl⟩
  | error f =>
    obtain ⟨o, ho, hx⟩ := exec_of_error he
    cases hx.symm.trans h
    exact .inr ⟨f, o, rfl, ho, rfl⟩

/-- The outcome of the state an operation answers is the evaluation of the inputs it found. -/
theorem result_of_exec (h : exec i s = .next t) : t.result = evaluate i s.inp := by
  rcases exec_cases h with ⟨o, he, rfl⟩ | ⟨f, o, he, -, rfl⟩ <;> exact he.symm

/-- Only the operation's own operands enter the evaluation (R46). -/
theorem evaluate_congr (h : sameOperands i x x') : evaluate i x = evaluate i x' := by
  cases i <;> simp only [sameOperands] at h <;> simp only [evaluate, h]

theorem evaluate_ok_outputsOfUnit (h : evaluate i x = .ok o) : OutputsOfUnit i o := by
  cases i with
  | combine | norm | fadd | fsub =>
    obtain ⟨r, -, rfl⟩ := map_eq_ok.1 h
    exact ⟨_, rfl⟩
  | decomp | decode | reasm | negf | align | fneg | fcmpeq =>
    cases h
    exact ⟨_, rfl⟩

theorem FaultOutputs.outputsOfUnit (h : FaultOutputs n i f o) : OutputsOfUnit i o := by
  cases h <;> exact ⟨_, rfl⟩

/-- R180: the operations that can fault. -/
theorem FaultOutputs.instr_cases (h : FaultOutputs n i f o) : i = .combine ∨ i = .norm ∨ i = .fadd ∨ i = .fsub := by
  cases h <;> simp

theorem exec_outputsOfUnit (h : exec i s = .next t) : OutputsOfUnit i t.out := by
  rcases exec_cases h with ⟨o, he, rfl⟩ | ⟨f, o, -, ho, rfl⟩
  · exact evaluate_ok_outputsOfUnit he
  · exact ho.outputsOfUnit

end Sys2Proof.Machine
end

