-- ==== Sys2Proof/Proofs/State.lean ====
section
/-! PROOFS. The statements about the state: the frame and the independence of an evaluation, a step as the decoded
operation, the masking constructor, and the outputs after power-up. -/

namespace Sys2Proof.Machine

/-- Settles O43: an evaluation either drives a result or raises a fault, and neither update writes the inputs. -/
theorem evaluationsLeaveTheInputsAlone : Obligations.EvaluationsLeaveTheInputsAlone := by
  unfold Obligations.EvaluationsLeaveTheInputsAlone
  intro i s t h
  have hout : OutputsOfUnit i t.out := exec_outputsOfUnit h
  rcases exec_cases h with ⟨o, -, rfl⟩ | ⟨f, o, -, ho, rfl⟩
  · refine ⟨rfl, fun _ => rfl, fun hf => absurd rfl hf, ?_⟩
    cases i <;> exact hout
  · refine ⟨rfl, fun hf => (nomatch hf), fun _ => ⟨rfl, ho.instr_cases⟩, ?_⟩
    cases i <;> exact hout

/-- Settles O44: the outcome is the evaluation of the inputs, which reads the operation's operands only. -/
theorem evaluationsAreIndependent : Obligations.EvaluationsAreIndependent := by
  unfold Obligations.EvaluationsAreIndependent
  intro i s s' t t' hop h h'
  rw [result_of_exec h, result_of_exec h', evaluate_congr hop]

/-- Settles O3: the request on the ports decodes to the selected operation, which is the one a step runs. -/
theorem stepRunsTheDecodedOperation : Obligations.StepRunsTheDecodedOperation := by
  unfold Obligations.StepRunsTheDecodedOperation
  refine ⟨fun s => ⟨s.selected, decode_request s⟩, fun s i h => ?_⟩
  have hi : s.selected = i := Except.ok.inj ((decode_request s).symm.trans h)
  rw [step_eq, hi]

/-- R8: masking is reduction modulo the width's power of two, for negative integers too. -/
theorem toNat_maskN_eq_emod (w : Nat) (x : Int) : ((maskN w x).toNat : Int) = x % 2 ^ w := by
  rw [maskN, BitVec.toNat_ofInt, Int.toNat_of_nonneg (Int.emod_nonneg x (by positivity))]
  push_cast
  rfl

/-- Settles O11: each field is masked to its own width. -/
theorem mkFieldsMasksEachField : Obligations.MkFieldsMasksEachField := by
  unfold Obligations.MkFieldsMasksEachField
  exact fun x e m => ⟨toNat_maskN_eq_emod 1 x, toNat_maskN_eq_emod 11 e, toNat_maskN_eq_emod 52 m⟩

/-- The zero pattern stands for `2^(-1023)`, so its sum with itself has exponent field 1 (R152). -/
theorem addFields_zero_zero : addFields (decompose 0) (decompose 0) = .ok (⟨0, 1, 0⟩, 0) := by decide

/-- The evaluation standing on the ports after power-up is FADD of the zero pattern and itself (log entry 4). -/
theorem step_reset : step State.reset = .next State.reset := by
  have hsel : State.reset.selected = .fadd := by decide
  have hy : topResult (reassemble ⟨0, 1, 0⟩) (statusOf 0 0 0) = ⟨0x0010000000000000, 0, 1, 0, 0⟩ := by decide
  have hsum : addFields (decompose State.reset.inp.a) (decompose State.reset.inp.b) = .ok (⟨0, 1, 0⟩, 0) :=
    addFields_zero_zero
  rw [step_eq, hsel, exec_fadd, hsum, driveSum_ok, hy]
  rfl

theorem outputsLegal_reset : OutputsLegal State.reset := by
  refine ⟨?_, rfl, rfl⟩
  decide

/-- Settles O47: at power-up no fault bit is set, and the step evaluates `0 + 0` into the outputs that already stand. -/
theorem powerUpOutputsFollowTheInputs : Obligations.PowerUpOutputsFollowTheInputs := by
  unfold Obligations.PowerUpOutputsFollowTheInputs
  exact ⟨outputsLegal_reset, step_reset⟩

end Sys2Proof.Machine
end

