-- ==== Sys2Proof/Proofs/Memory.lean ====
section
/-! PROOFS. The statement about repeating an evaluation (R43, R189): every operation answers a next state, and what it
answers is determined by the inputs, which it leaves standing. -/

namespace Sys2Proof.Machine

variable {i : Instr} {s t : State}

/-- R202: the outcome is a next state, with a result or with a fault in it. -/
theorem exec_yields (i : Instr) (s : State) : ∃ t, exec i s = .next t := by
  cases he : evaluate i s.inp with
  | ok o => exact ⟨_, exec_of_ok he⟩
  | error f =>
    obtain ⟨o, -, hx⟩ := exec_of_error he
    exact ⟨_, hx⟩

/-- R43: no operation writes the inputs. -/
theorem inp_of_exec (h : exec i s = .next t) : t.inp = s.inp := by
  rcases exec_cases h with ⟨o, -, rfl⟩ | ⟨f, o, -, -, rfl⟩
  · exact drive_inp s o
  · exact raise_inp s f o

/-- R21, R68: the inputs alone select the operation. -/
theorem selected_congr (h : t.inp = s.inp) : t.selected = s.selected := by
  rw [State.selected, State.selected, h]

/-- Settles O45: a step leaves the inputs standing, so the second step selects the same operation and evaluates it on
the same inputs. -/
theorem repeatingAStepRepeatsItsResult : Obligations.RepeatingAStepRepeatsItsResult := by
  unfold Obligations.RepeatingAStepRepeatsItsResult
  intro s t h
  rw [step_eq] at h
  have hinp : t.inp = s.inp := inp_of_exec h
  obtain ⟨u, hu⟩ := exec_yields s.selected t
  refine ⟨u, ?_, ?_, (inp_of_exec hu).trans hinp⟩
  · rw [step_eq, selected_congr hinp, hu]
  · rw [result_of_exec hu, result_of_exec h, hinp]

end Sys2Proof.Machine
end

