-- ==== Sys2Proof/Proofs/Legality.lean ====
section
/-! PROOFS. The invariant of the outputs: what a step drives is legal, by the guarantee of the unit that drives it, and
a fault is one that unit raises (R180). -/

namespace Sys2Proof.Machine

/-! What each unit guarantees of its outputs. -/

namespace AlignedAs

variable {A B L R : FieldTriple} {o : AlignOut}

theorem two_pow_le_sigL (h : AlignedAs A B L R o) : 2 ^ 52 ≤ o.sigL.toNat := by
  rw [h.sigL]
  omega

/-- R105: a shift of the significand's whole width leaves 0. -/
theorem sigR_eq_zero (h : AlignedAs A B L R o) (hd : 53 ≤ o.delta.toNat) : o.sigR = 0 := by
  have hm : R.mantissa.toNat + 2 ^ 52 < 2 ^ 53 := by
    have := R.mantissa.isLt
    omega
  apply BitVec.eq_of_toNat_eq
  rw [h.sigR, ← h.delta]
  exact Nat.div_eq_of_lt (hm.trans_le (Nat.pow_le_pow_right (by norm_num) hd))

theorem delta_le_resExp (h : AlignedAs A B L R o) : o.delta.toNat ≤ o.resExp.toNat := by
  rw [h.delta, h.resExp]
  exact Nat.sub_le _ _

end AlignedAs

/-- What COMBINE can do (R122, R123): a sum or a difference with `borrow` 0, or the one fault. -/
theorem combine_cases (l r : U53) (e : U1) :
    (∃ m, combine l r e = .ok ⟨m, 0⟩) ∨ combine l r e = .error .borrow := by
  rcases u1_cases e with rfl | rfl
  · exact .inl ⟨_, combine_add l r⟩
  · rcases Nat.lt_or_ge l.toNat r.toNat with h | h
    · exact .inr (combine_borrow h)
    · exact .inl ⟨_, combine_sub h⟩

theorem combine_ok_borrow {l r : U53} {e : U1} {c : CombineOut} (h : combine l r e = .ok c) : c.borrow = 0 := by
  rcases combine_cases l r e with ⟨m, hm⟩ | hm
  · cases hm.symm.trans h
    rfl
  · cases hm.symm.trans h

theorem combine_error_eq_borrow {l r : U53} {e : U1} {f : Fault} (h : combine l r e = .error f) : f = .borrow := by
  rcases combine_cases l r e with ⟨m, hm⟩ | hm
  · cases hm.symm.trans h
  · cases hm.symm.trans h
    rfl

theorem normalizeSig_ok_zeroSum {m : U54} {e : U11} {n : NormOut} (h : normalizeSig m e = .ok n) : n.zeroSum = 0 := by
  rcases normalizeSig_cases m e with ⟨-, hn⟩ | ⟨-, hn⟩ | ⟨-, -, hn⟩ | ⟨k, -, -, -, -, -, hn⟩
  · cases hn.symm.trans h
  all_goals
    obtain rfl := Except.ok.inj (hn.symm.trans h)
    exact normOut_zeroSum _ _

/-- R83: with the mantissa factor in `[1, 2)` and the exponent field 0 to 2047. -/
theorem abs_val_range (f : FieldTriple) : (2 : Rat) ^ (-1023 : Int) ≤ |val f| ∧ |val f| < (2 : Rat) ^ (1025 : Int) := by
  have hm := f.mantissa.isLt
  have he := f.exponent.isLt
  have hlo : (2 : Rat) ^ (52 : Int) ≤ ((f.mantissa.toNat + 2 ^ 52 : Nat) : Rat) := by
    exact_mod_cast Nat.le_add_left _ _
  have hhi : ((f.mantissa.toNat + 2 ^ 52 : Nat) : Rat) < (2 : Rat) ^ (53 : Int) := by
    exact_mod_cast (by omega : f.mantissa.toNat + 2 ^ 52 < 2 ^ 53)
  have hexp0 : (2 : Rat) ^ (-1075 : Int) ≤ 2 ^ ((f.exponent.toNat : Int) - 1075) :=
    zpow_le_zpow_right₀ one_le_two (by omega)
  have hexp1 : (2 : Rat) ^ ((f.exponent.toNat : Int) - 1075) ≤ 2 ^ (972 : Int) :=
    zpow_le_zpow_right₀ one_le_two (by omega)
  rw [abs_val, show (-1023 : Int) = 52 + -1075 by norm_num, show (1025 : Int) = 53 + 972 by norm_num,
    zpow_add₀ two_ne_zero, zpow_add₀ two_ne_zero]
  exact ⟨by gcongr, mul_lt_mul hhi hexp1 (by positivity) (by positivity)⟩

/-! The guarantees as legal outputs. -/

variable {i : Instr} {s t : State} {x : Inputs} {o : Outputs} {f : Fault} {n : Nat}

theorem outputsLegal_drive_align (s : State) (A B : FieldTriple) : OutputsLegal (s.drive (.align (align A B))) := by
  obtain ⟨L, R, h⟩ := align_spec A B
  exact ⟨h.sigR_le_sigL, h.two_pow_le_sigL, h.sigR_eq_zero, h.delta_le_resExp⟩

/-- R162: the field ports of the top unit are the fields of `y`, so only the fault bits of `status` are in question. -/
theorem outputsLegal_drive_topResult (s : State) (y : BitPattern) {st : U3}
    (h0 : st.getLsbD 0 = false) (h1 : st.getLsbD 1 = false) : OutputsLegal (s.drive (.top (topResult y st))) :=
  ⟨rfl, h0, h1⟩

theorem outputsLegal_drive_sumOutputs (s : State) (r : SumResult) : OutputsLegal (s.drive (sumOutputs r)) := by
  obtain ⟨hzeroSum, hborrow, -⟩ := statusOf_bits r.2 0 0
  exact outputsLegal_drive_topResult s _ hzeroSum hborrow

/-- R124, R182: an addition raises `ZeroSum` only, and its two specified status bits say so. -/
theorem outputsLegal_raise_addFields {A B : FieldTriple} (s : State) (n : Nat) (h : addFields A B = .error f) :
    OutputsLegal (s.raise f (.top (topAfterFault f n))) := by
  obtain ⟨rfl, -⟩ := (addFields_error_iff A B f).1 h
  exact statusAfterFault_zeroSum n

/-- The result of an evaluation is legal on the outputs. -/
theorem outputsLegal_drive_of_evaluate (h : evaluate i x = .ok o) : OutputsLegal (s.drive o) := by
  cases i with
  | decomp | reasm | negf =>
    cases h
    trivial
  | decode =>
    cases h
    exact abs_val_range x.decodeIn
  | align =>
    cases h
    exact outputsLegal_drive_align s x.alignA x.alignB
  | combine =>
    obtain ⟨c, hc, rfl⟩ := map_eq_ok.1 h
    exact combine_ok_borrow hc
  | norm =>
    obtain ⟨c, hc, rfl⟩ := map_eq_ok.1 h
    exact normalizeSig_ok_zeroSum hc
  | fadd | fsub =>
    obtain ⟨r, -, rfl⟩ := map_eq_ok.1 h
    exact outputsLegal_drive_sumOutputs s r
  | fneg | fcmpeq =>
    cases h
    exact outputsLegal_drive_topResult s _ rfl rfl

/-- A fault of an evaluation is legal on the outputs of the unit that raised it. -/
theorem outputsLegal_raise_of_evaluate (h : evaluate i x = .error f) (ho : FaultOutputs n i f o) :
    OutputsLegal (s.raise f o) := by
  cases ho with
  | combine =>
    cases combine_error_eq_borrow (map_eq_error.1 h)
    rfl
  | norm =>
    obtain ⟨rfl, -⟩ := (normalizeSig_error_iff _ _ f).1 (map_eq_error.1 h)
    rfl
  | fadd | fsub => exact outputsLegal_raise_addFields s n (map_eq_error.1 h)

theorem outputsLegal_of_exec (h : exec i s = .next t) : OutputsLegal t := by
  rcases exec_cases h with ⟨o, he, rfl⟩ | ⟨f, o, he, ho, rfl⟩
  · exact outputsLegal_drive_of_evaluate he
  · exact outputsLegal_raise_of_evaluate he ho

/-- Settles O46: a step is one evaluation, and either outcome of an evaluation leaves legal outputs. -/
theorem everyStepGivesLegalOutputs : Obligations.EveryStepGivesLegalOutputs := by
  unfold Obligations.EveryStepGivesLegalOutputs
  exact fun s t h => outputsLegal_of_exec ((step_eq s).symm.trans h)

end Sys2Proof.Machine
end

