-- ==== Sys2Proof/Proofs/Encoding.lean ====
section
/-! PROOFS. The statements about selecting an operation: decoding and encoding agree both ways (R68, R69), and a table
word that decodes is what the next step runs (log entry 5). -/

namespace Sys2Proof

variable {r : Request} {i : Instr} {nbits w : Nat}

theorem decode_encode (i : Instr) : decode (encode i) = .ok i := by
  cases i <;> rfl

theorem encode_wellFormed (i : Instr) : (encode i).wellFormed = true := by
  cases i <;> rfl

/-- R67: the wires that select an operation of the top unit are its encoding. -/
theorem encode_decodeOp (w0 w1 : Bool) : encode (decodeOp (opOfWires w0 w1)) = ⟨.topUnit, [w0, w1]⟩ := by
  cases w0 <;> cases w1 <;> rfl

/-- R68: a path other than the top unit's selects its operation without a wire. -/
theorem encode_decodePorts {path : EvalPath} (h : path ≠ .topUnit) (op : U2) :
    encode (decodePorts path op) = ⟨path, []⟩ := by
  cases path with
  | topUnit => exact absurd rfl h
  | decompPath | negfPath | reassembler | aligner | combiner | normalizer | reference => rfl

theorem selectWidth_eq_zero {path : EvalPath} (h : path ≠ .topUnit) : path.selectWidth = 0 := by
  cases path with
  | topUnit => exact absurd rfl h
  | decompPath | negfPath | reassembler | aligner | combiner | normalizer | reference => rfl

theorem wellFormed_iff : r.wellFormed = true ↔ r.select.length = r.path.selectWidth :=
  beq_iff_eq

/-- R69: every request of the right number of wires is the encoding of an operation. -/
theorem exists_eq_encode (h : r.wellFormed = true) : ∃ i, r = encode i := by
  rw [wellFormed_iff] at h
  obtain ⟨path, select⟩ := r
  by_cases hp : path = .topUnit
  · subst hp
    obtain ⟨w0, w1, rfl⟩ := List.length_eq_two.1 h
    exact ⟨_, (encode_decodeOp w0 w1).symm⟩
  · obtain rfl := List.length_eq_zero_iff.1 (h.trans (selectWidth_eq_zero hp))
    exact ⟨_, (encode_decodePorts hp 0).symm⟩

/-- R68: the decoder accepts two wires for the top unit and no wire for another path. -/
theorem wellFormed_of_decode (h : decode r = .ok i) : r.wellFormed = true := by
  rw [wellFormed_iff]
  obtain ⟨path, select⟩ := r
  unfold decode at h
  split at h
  case h_1 hp hs =>
    cases hp
    cases hs
    rfl
  case h_3 hs hp =>
    cases hs
    exact (selectWidth_eq_zero hp).symm
  case h_2 | h_4 => cases h

theorem decode_eq_ok_iff : decode r = .ok i ↔ r = encode i := by
  constructor
  · intro h
    obtain ⟨j, rfl⟩ := exists_eq_encode (wellFormed_of_decode h)
    rw [Except.ok.inj ((decode_encode j).symm.trans h)]
  · rintro rfl
    exact decode_encode i

theorem wellFormed_iff_exists_decode : r.wellFormed = true ↔ ∃ i, decode r = .ok i := by
  simp only [decode_eq_ok_iff]
  refine ⟨exists_eq_encode, ?_⟩
  rintro ⟨i, rfl⟩
  exact encode_wellFormed i

/-- Settles O2: the encodings are exactly the well-formed requests, and the decoder inverts the encoder on them. -/
theorem decodeEncodeAgree : Obligations.DecodeEncodeAgree := by
  unfold Obligations.DecodeEncodeAgree
  exact ⟨fun i => ⟨encode_wellFormed i, decode_encode i⟩, fun _ _ => decode_eq_ok_iff,
    fun _ => wellFormed_iff_exists_decode⟩

/-- Settles O1: each request of the table is the encoding of its operation. -/
theorem operationTableWordsDecode : Obligations.OperationTableWordsDecode := by
  unfold Obligations.OperationTableWordsDecode
  exact ⟨decode_encode .fadd, decode_encode .fsub, decode_encode .fneg, decode_encode .fcmpeq,
    decode_encode .decomp, decode_encode .decode, decode_encode .reasm, decode_encode .negf, decode_encode .align,
    decode_encode .combine, decode_encode .norm⟩

/-! Table words. -/

/-- The two lowest bits of a word, on the wires, are the word masked to the width of `op` (log entry 5). -/
theorem opOfWires_testBit (w : Nat) : opOfWires (w.testBit 0) (w.testBit 1) = BitVec.ofNat 2 w := by
  rw [← opOfWires_wiresOfOp (BitVec.ofNat 2 w), BitVec.getLsbD_ofNat, BitVec.getLsbD_ofNat]
  rfl

theorem requestOfTableWord_eq_some (h : requestOfTableWord nbits w = some r) :
    r = ⟨.topUnit, [w.testBit 0, w.testBit 1]⟩ := by
  unfold requestOfTableWord at h
  split at h
  · cases h
  · split at h
    · exact (Option.some.inj h).symm
    · cases h

/-- A table word decodes through the request it stands for. -/
theorem decodeTableWord_eq_some (h : decodeTableWord nbits w = some i) :
    requestOfTableWord nbits w = some ⟨.topUnit, [w.testBit 0, w.testBit 1]⟩ ∧ i = decodeOp (BitVec.ofNat 2 w) := by
  unfold decodeTableWord at h
  split at h
  case h_1 r hr =>
    obtain rfl := requestOfTableWord_eq_some hr
    rw [← opOfWires_testBit]
    exact ⟨hr, (Option.some.inj h).symm⟩
  case h_2 => cases h

namespace Machine

theorem withFetchWord_eq (s : State) (h : requestOfTableWord nbits w = some ⟨.topUnit, [w.testBit 0, w.testBit 1]⟩) :
    s.withFetchWord nbits w = { s with inp := { s.inp with path := .topUnit, op := BitVec.ofNat 2 w } } := by
  rw [State.withFetchWord, h, ← opOfWires_testBit]
  rfl

/-- Settles O4: a word that decodes is driven on the wires of `op`, which then select the decoded operation. -/
theorem storedTableWordRunsNext : Obligations.StoredTableWordRunsNext := by
  unfold Obligations.StoredTableWordRunsNext
  intro s nbits w i h
  obtain ⟨hr, rfl⟩ := decodeTableWord_eq_some h
  have hstate := withFetchWord_eq s hr
  have hsel : (s.withFetchWord nbits w).selected = decodeOp (BitVec.ofNat 2 w) := by rw [hstate]; rfl
  exact ⟨by rw [step_eq, hsel], hstate⟩

end Machine

end Sys2Proof
end

