-- ==== Sys2Proof/Proofs/FieldDecomposer.lean ====
section
/-! PROOFS. The statements about the field operations DECOMP, REASM and NEGF and the reference function DECODE (R80 to
R86). -/

namespace Sys2Proof.Machine

/-! A field operation on the operands the host has just driven. -/

theorem exec_driveDecomp (s : State) (p : BitPattern) :
    exec .decomp (s.driveDecomp p) = .next ((s.driveDecomp p).drive (.decomp (decompose p))) :=
  exec_decomp (s.driveDecomp p)

theorem exec_driveReasm (s : State) (f : FieldTriple) :
    exec .reasm (s.driveReasm f) = .next ((s.driveReasm f).drive (.reasm (reassemble f))) :=
  exec_reasm (s.driveReasm f)

theorem exec_driveNegf (s : State) (f : FieldTriple) :
    exec .negf (s.driveNegf f) = .next ((s.driveNegf f).drive (.negf (negate f))) :=
  exec_negf (s.driveNegf f)

/-- R154: `b` stands on its port and is ignored. -/
theorem exec_fneg_driveTop (s : State) (op : U2) (a b : BitPattern) :
    exec .fneg (s.driveTop op a b)
      = .next ((s.driveTop op a b).drive (.top (topResult (a ^^^ 0x8000000000000000#64) 0))) :=
  exec_fneg (s.driveTop op a b)

/-! The reference value (R83). -/

/-- R83, in the rule's own numbers. -/
theorem val_eq_sign_exponent_mantissa (f : FieldTriple) :
    val f = (-1) ^ f.sign.toNat * 2 ^ ((f.exponent.toNat : Int) - 1023)
      * (1 + (f.mantissa.toNat : Rat) / 2 ^ (52 : Nat)) := by
  have hhidden : ((Config.hidden : Nat) : Rat) = 2 ^ (52 : Nat) := by norm_num [Config.hidden]
  rw [val, hhidden]
  rfl

/-- The first `n` terms of the document's sum are the low `n` bits of the mantissa, scaled (R7, R83). -/
theorem mantissaBitSum_eq_mod_div (m : U52) (n : Nat) :
    mantissaBitSum m n = ((m.toNat % 2 ^ n : Nat) : Rat) / 2 ^ (52 : Nat) := by
  induction n with
  | zero => simp [mantissaBitSum, Nat.mod_one]
  | succ n ih =>
    have hweight : (2 : Rat) ^ ((n : Int) - 52) = 2 ^ n / 2 ^ (52 : Nat) :=
      zpow_natCast_sub_natCast₀ two_ne_zero n 52
    rw [mantissaBitSum, ih, hweight, BitVec.getLsbD, Nat.toNat_testBit, Nat.mod_pow_succ]
    push_cast
    ring

theorem mantissaBitSum_eq_div (m : U52) : mantissaBitSum m 52 = (m.toNat : Rat) / 2 ^ (52 : Nat) := by
  rw [mantissaBitSum_eq_mod_div, Nat.mod_eq_of_lt m.isLt]

/-- Settles O8: DECODE drives `val`, whose range is that of the mantissa factor times that of the exponent factor. -/
theorem decodeGivesTheExactValue : Obligations.DecodeGivesTheExactValue := by
  unfold Obligations.DecodeGivesTheExactValue
  intro s
  obtain ⟨hlow, hhigh⟩ := abs_val_range s.inp.decodeIn
  exact ⟨val s.inp.decodeIn, exec_decode s, val_eq_sign_exponent_mantissa _, mantissaBitSum_eq_div _, hlow, hhigh⟩

/-! Negation (R82, R86). -/

theorem negate_sign_ne (f : FieldTriple) : (negate f).sign ≠ f.sign := by
  intro h
  have hnat : 1 - f.sign.toNat = f.sign.toNat := by rw [← negate_sign_toNat, h]
  omega

/-- Settles O10: NEGF twice inverts the sign twice, and between DECOMP and REASM it inverts bit 63, as FNEG does. -/
theorem negationLaws : Obligations.NegationLaws := by
  unfold Obligations.NegationLaws
  constructor
  · intro s f
    refine ⟨_, _, negate f, exec_driveNegf s f, drive_out _ _, exec_driveNegf _ _, ?_,
      negate_sign_ne f, negate_exponent f, negate_mantissa f, val_negate f⟩
    rw [drive_out, negate_negate]
  · intro s p
    refine ⟨_, _, _, _, decompose p, negate (decompose p), _, exec_driveDecomp s p, drive_out _ _,
      exec_driveNegf _ _, drive_out _ _, exec_driveReasm _ _, ?_,
      exec_fneg_driveTop _ _ _ _, drive_out _ _, topResult_y _ _⟩
    rw [drive_out, reassemble_negate_decompose]

/-! Patterns and fields (R80 to R82, R85). -/

/-- Settles O5: the slices of the pattern as numbers. -/
theorem decompSplitsThePattern : Obligations.DecompSplitsThePattern := by
  unfold Obligations.DecompSplitsThePattern
  exact fun s => ⟨decompose s.inp.pattern, exec_decomp s, decompose_sign_toNat _, decompose_exponent_toNat _,
    decompose_mantissa_toNat _⟩

/-- Settles O6: the concatenation of the fields as a number. -/
theorem reasmJoinsTheFields : Obligations.ReasmJoinsTheFields := by
  unfold Obligations.ReasmJoinsTheFields
  exact fun s => ⟨reassemble s.inp.reasmIn, exec_reasm s, reassemble_toNat _⟩

/-- Settles O7: NEGF drives `negate`, which inverts the sign alone. -/
theorem negfInvertsOnlyTheSign : Obligations.NegfInvertsOnlyTheSign := by
  unfold Obligations.NegfInvertsOnlyTheSign
  exact fun s => ⟨negate s.inp.negIn, exec_negf s, negate_sign_toNat _, negate_exponent _, negate_mantissa _⟩

/-- Settles O9: slicing and concatenating are inverse both ways, and each evaluation drives what the next one reads. -/
theorem fieldRoundTripsBothWays : Obligations.FieldRoundTripsBothWays := by
  unfold Obligations.FieldRoundTripsBothWays
  constructor
  · intro s p
    refine ⟨_, _, decompose p, exec_driveDecomp s p, drive_out _ _, exec_driveReasm _ _, ?_⟩
    rw [drive_out, reassemble_decompose]
  · intro s f
    refine ⟨_, _, reassemble f, exec_driveReasm s f, drive_out _ _, exec_driveDecomp _ _, ?_⟩
    rw [drive_out, decompose_reassemble]

end Sys2Proof.Machine
end

