-- ==== Sys2Proof/Proofs/FieldAligner.lean ====
section
/-! PROOFS. The statements about ALIGN (R101 to R108), from `AlignedAs`: the ordered operands are those of larger and
of smaller rank, which does not depend on the order they are presented in. -/

namespace Sys2Proof.Machine

theorem alignedAs_of_exec {s t : State} {o : AlignOut} (h : exec .align s = .next t) (ho : t.out = .align o) :
    ∃ L R, AlignedAs s.inp.alignA s.inp.alignB L R o := by
  obtain rfl : s.drive (.align (align s.inp.alignA s.inp.alignB)) = t := by simpa using h
  obtain rfl : align s.inp.alignA s.inp.alignB = o := by simpa using ho
  exact align_spec _ _

theorem effSubOf_eq_one (L R : FieldTriple) : effSubOf L R = 1 ↔ L.sign ≠ R.sign := by
  rw [Ne, ← effSubOf_eq_zero]
  rcases u1_cases (effSubOf L R) with h | h <;> simp [h]

/-! The order by rank (R51, R101). -/

/-- R101: exponent first, mantissa on a tie. -/
theorem rankOf_lt_iff (A B : FieldTriple) :
    rankOf A < rankOf B ↔ A.exponent.toNat < B.exponent.toNat
      ∨ (B.exponent = A.exponent ∧ A.mantissa.toNat < B.mantissa.toNat) := by
  have hA := A.mantissa.isLt
  have hB := B.mantissa.isLt
  rw [← BitVec.toNat_inj]
  simp only [rankOf]
  omega

theorem rankOf_eq_iff (A B : FieldTriple) :
    rankOf A = rankOf B ↔ A.exponent = B.exponent ∧ A.mantissa = B.mantissa := by
  have hA := A.mantissa.isLt
  have hB := B.mantissa.isLt
  rw [← BitVec.toNat_inj, ← BitVec.toNat_inj]
  simp only [rankOf]
  omega

/-- A number below `2 ^ n` has no bit at `n` or above for a longer slice to keep. -/
theorem mod_two_pow_min {x n : Nat} (h : x < 2 ^ n) (d : Nat) : x % 2 ^ min d n = x % 2 ^ d := by
  rcases le_total d n with hd | hd
  · rw [min_eq_left hd]
  · rw [min_eq_right hd, Nat.mod_eq_of_lt h, Nat.mod_eq_of_lt (h.trans_le (Nat.pow_le_pow_right two_pos hd))]

namespace AlignedAs

variable {A B L R : FieldTriple} {o : AlignOut}

theorem swap_eq_one_iff (h : AlignedAs A B L R o) : o.swap = 1 ↔ rankOf A < rankOf B :=
  h.swapIff.trans (rankOf_lt_iff A B).symm

theorem swap_eq_zero_iff (h : AlignedAs A B L R o) : o.swap = 0 ↔ rankOf B ≤ rankOf A := by
  rw [← not_lt, ← h.swap_eq_one_iff]
  rcases u1_cases o.swap with hs | hs <;> simp [hs]

theorem operands_of_swap_eq_one (h : AlignedAs A B L R o) (hs : o.swap = 1) : L = B ∧ R = A := by
  obtain ⟨h0, _⟩ | ⟨_, hLR⟩ := h.order
  · simp [hs] at h0
  · exact hLR

theorem operands_of_swap_eq_zero (h : AlignedAs A B L R o) (hs : o.swap = 0) : L = A ∧ R = B := by
  obtain ⟨_, hLR⟩ | ⟨h1, _⟩ := h.order
  · exact hLR
  · simp [hs] at h1

theorem rankOf_larger (h : AlignedAs A B L R o) : rankOf L = max (rankOf A) (rankOf B) := by
  rcases u1_cases o.swap with hs | hs
  · rw [(h.operands_of_swap_eq_zero hs).1, max_eq_left (h.swap_eq_zero_iff.1 hs)]
  · rw [(h.operands_of_swap_eq_one hs).1, max_eq_right (h.swap_eq_one_iff.1 hs).le]

theorem rankOf_smaller (h : AlignedAs A B L R o) : rankOf R = min (rankOf A) (rankOf B) := by
  rcases u1_cases o.swap with hs | hs
  · rw [(h.operands_of_swap_eq_zero hs).2, min_eq_right (h.swap_eq_zero_iff.1 hs)]
  · rw [(h.operands_of_swap_eq_one hs).2, min_eq_left (h.swap_eq_one_iff.1 hs).le]

theorem effSub_eq (h : AlignedAs A B L R o) : o.effSub = effSubOf A B := by
  rw [h.effSub]
  obtain ⟨_, rfl, rfl⟩ | ⟨_, rfl, rfl⟩ := h.order
  · rfl
  · exact effSubOf_comm _ _

theorem resSign_of_rankOf_lt (h : AlignedAs A B L R o) (hlt : rankOf A < rankOf B) : o.resSign = B.sign := by
  rw [h.resSign, (h.operands_of_swap_eq_one (h.swap_eq_one_iff.2 hlt)).1]

theorem resSign_of_rankOf_le (h : AlignedAs A B L R o) (hle : rankOf B ≤ rankOf A) : o.resSign = A.sign := by
  rw [h.resSign, (h.operands_of_swap_eq_zero (h.swap_eq_zero_iff.2 hle)).1]

theorem delta_eq_zero_iff (h : AlignedAs A B L R o) : o.delta = 0 ↔ R.exponent = L.exponent := by
  have hle := h.exponent
  have hzero : o.delta = 0 ↔ o.delta.toNat = 0 := (BitVec.toNat_inj (y := 0)).symm
  rw [hzero, ← BitVec.toNat_inj, h.delta]
  omega

/-- R103. -/
theorem sigR_eq_div (h : AlignedAs A B L R o) : o.sigR.toNat = (R.mantissa.toNat + 2 ^ 52) / 2 ^ o.delta.toNat := by
  rw [h.sigR, h.delta]

/-- R105: only the leading bit is left. -/
theorem sigR_eq_one (h : AlignedAs A B L R o) (hd : o.delta.toNat = 52) : o.sigR = 1 := by
  have hm := R.mantissa.isLt
  apply BitVec.eq_of_toNat_eq
  rw [h.sigR_eq_div, hd, Nat.add_div_right _ (by norm_num), Nat.div_eq_of_lt hm]
  rfl

/-- R106: both significands keep their leading bit only at a shift of 0. -/
theorem sigL_eq_iff (h : AlignedAs A B L R o) : o.sigL = o.sigR ↔ o.delta = 0 ∧ A.mantissa = B.mantissa := by
  rw [← BitVec.toNat_inj, h.sigL_eq_sigR_iff, h.delta_eq_zero_iff]
  obtain ⟨_, rfl, rfl⟩ | ⟨_, rfl, rfl⟩ := h.order
  · rw [eq_comm (a := R.mantissa)]
  · rfl

variable {L' R' : FieldTriple} {p : AlignOut}

/-- R108: everything but the two signs and `swap` is a function of the larger and the smaller rank. -/
theorem outputs_exchanged (h : AlignedAs A B L R o) (h' : AlignedAs B A L' R' p) :
    p.resExp = o.resExp ∧ p.delta = o.delta ∧ p.sigL = o.sigL ∧ p.sigR = o.sigR ∧ p.effSub = o.effSub := by
  obtain ⟨hLe, hLm⟩ := (rankOf_eq_iff L' L).1 (by rw [h'.rankOf_larger, h.rankOf_larger, max_comm])
  obtain ⟨hRe, hRm⟩ := (rankOf_eq_iff R' R).1 (by rw [h'.rankOf_smaller, h.rankOf_smaller, min_comm])
  have hdelta : p.delta = o.delta := BitVec.eq_of_toNat_eq (by rw [h'.delta, h.delta, hLe, hRe])
  exact ⟨by rw [h'.resExp, h.resExp, hLe], hdelta,
    BitVec.eq_of_toNat_eq (by rw [h'.sigL, h.sigL, hLm]),
    BitVec.eq_of_toNat_eq (by rw [h'.sigR_eq_div, h.sigR_eq_div, hRm, hdelta]),
    by rw [h'.effSub_eq, h.effSub_eq, effSubOf_comm]⟩

/-- R108: without a tie exactly one of the two orders swaps, and the sign is that of the same operand. -/
theorem exchanged_of_rankOf_ne (h : AlignedAs A B L R o) (h' : AlignedAs B A L' R' p) (hne : rankOf A ≠ rankOf B) :
    p.swap = o.swap ^^^ 1 ∧ p.resSign = o.resSign := by
  rcases lt_or_gt_of_ne hne with hlt | hlt
  · rw [h.swap_eq_one_iff.2 hlt, h'.swap_eq_zero_iff.2 hlt.le, h.resSign_of_rankOf_lt hlt,
      h'.resSign_of_rankOf_le hlt.le]
    exact ⟨rfl, rfl⟩
  · rw [h.swap_eq_zero_iff.2 hlt.le, h'.swap_eq_one_iff.2 hlt, h.resSign_of_rankOf_le hlt.le,
      h'.resSign_of_rankOf_lt hlt]
    exact ⟨rfl, rfl⟩

/-- R108: on a tie neither order swaps, and the sign is that of the first operand. -/
theorem exchanged_of_rankOf_eq (h : AlignedAs A B L R o) (h' : AlignedAs B A L' R' p) (heq : rankOf A = rankOf B) :
    p.swap = o.swap ∧ o.resSign = A.sign ∧ p.resSign = B.sign :=
  ⟨(h'.swap_eq_zero_iff.2 heq.le).trans (h.swap_eq_zero_iff.2 heq.ge).symm,
    h.resSign_of_rankOf_le heq.ge, h'.resSign_of_rankOf_le heq.le⟩

end AlignedAs

/-- Settles O12: the outputs of `align` are those of the ordered operands, and a `swap` of 1 is the order by rank. -/
theorem alignOrdersRestoresAndShifts : Obligations.AlignOrdersRestoresAndShifts := by
  unfold Obligations.AlignOrdersRestoresAndShifts
  intro s
  obtain ⟨L, R, h⟩ := align_spec s.inp.alignA s.inp.alignB
  refine ⟨_, L, R, exec_align s, (u1_cases _).symm, h.swapIff, h.swap_eq_one_iff, h.operands_of_swap_eq_one,
    h.operands_of_swap_eq_zero, h.resSign, h.resExp, u1_cases _, ?_, ?_, h.sigL, h.sigR_eq_div⟩
  · rw [h.effSub, effSubOf_eq_one]
  · rw [h.delta, Nat.sub_add_cancel h.exponent]

/-- Settles O13: a significand has 53 bits, so a shift by 52 leaves its leading bit and a longer one leaves 0. -/
theorem alignLargeShiftsClear : Obligations.AlignLargeShiftsClear := by
  unfold Obligations.AlignLargeShiftsClear
  intro s t o hexec hout
  obtain ⟨L, R, h⟩ := alignedAs_of_exec hexec hout
  exact ⟨h.sigR_eq_zero, h.sigR_eq_one⟩

/-- Settles O14: the order by magnitude gives the bound, and a shift of 1 or more makes it strict. -/
theorem alignKeepsTheLargerOnTop : Obligations.AlignKeepsTheLargerOnTop := by
  unfold Obligations.AlignKeepsTheLargerOnTop
  intro s t o hexec hout
  obtain ⟨L, R, h⟩ := alignedAs_of_exec hexec hout
  exact ⟨h.sigR_le_sigL, h.sigL_eq_iff⟩

/-- Settles O15: `sig_r` is the quotient of `x` by `2 ^ delta`, and what is lost is the remainder. -/
theorem alignTruncatesBelowOneUnit : Obligations.AlignTruncatesBelowOneUnit := by
  unfold Obligations.AlignTruncatesBelowOneUnit
  intro s t o x hexec hout hx
  obtain ⟨L, R, h⟩ := alignedAs_of_exec hexec hout
  obtain rfl : x = R.mantissa.toNat + 2 ^ 52 := by
    obtain ⟨hs, _, rfl⟩ | ⟨hs, _, rfl⟩ := h.order <;> simpa [hs] using hx
  have hlt : R.mantissa.toNat + 2 ^ 52 < 2 ^ 53 := by
    have := R.mantissa.isLt
    omega
  rw [h.sigR_eq_div, mod_two_pow_min hlt, eq_comm,
    ← Nat.dvd_iff_div_mul_eq, Nat.dvd_iff_mod_eq_zero]
  exact ⟨Nat.div_mul_le_self _ _, Nat.lt_mul_of_div_lt (Nat.lt_add_one _) (Nat.two_pow_pos _), Iff.rfl⟩

/-- Settles O16: the larger and the smaller rank are the same in both orders; on a tie the order chooses the sign. -/
theorem alignSymmetry : Obligations.AlignSymmetry := by
  unfold Obligations.AlignSymmetry
  intro s t u A B o p hexec hout hexec' hout'
  obtain ⟨L, R, h⟩ := alignedAs_of_exec hexec hout
  obtain ⟨L', R', h'⟩ := alignedAs_of_exec hexec' hout'
  rw [driveAlign_inp] at h h'
  obtain ⟨hexp, hdelta, hsigL, hsigR, heff⟩ := h.outputs_exchanged h'
  refine ⟨hexp, hdelta, hsigL, hsigR, heff, fun hne => (h.exchanged_of_rankOf_ne h' hne).1,
    fun heq => (h.exchanged_of_rankOf_eq h' heq).1, fun hsign => ?_, fun heq => (h.exchanged_of_rankOf_eq h' heq).2⟩
  by_cases heq : rankOf A = rankOf B
  · obtain ⟨_, ho, hp⟩ := h.exchanged_of_rankOf_eq h' heq
    rw [hp, ho, hsign.resolve_left (not_not_intro heq)]
  · exact (h.exchanged_of_rankOf_ne h' heq).2

end Sys2Proof.Machine
end

