-- ==== Sys2Proof/Proofs/MantissaCombiner.lean ====
section
/-! PROOFS. The statements about COMBINE (R121 to R125): it is exact unless it underflows, and behind ALIGN it cannot
underflow, because the larger significand is on top and an alignment shift makes the other one small. -/

namespace Sys2Proof.Machine

/-- R121, R122: the sum, and a difference that is not negative, fit the 54 bits. -/
theorem combine_exact {l r : U53} {e : U1} (h : e = 1 → r.toNat ≤ l.toNat) :
    ∃ m : U54, combine l r e = .ok ⟨m, 0⟩ ∧ (e = 0 → m.toNat = l.toNat + r.toNat)
      ∧ (e = 1 → m.toNat + r.toNat = l.toNat) := by
  rcases u1_cases e with rfl | rfl
  · exact ⟨_, combine_add l r, fun _ => combine_sum_toNat l r, fun he => absurd he (by decide)⟩
  · have hle := h rfl
    refine ⟨_, combine_sub hle, fun he => absurd he (by decide), fun _ => ?_⟩
    rw [combine_diff_toNat, Nat.sub_add_cancel hle]

/-- Settles O17: without an underflow COMBINE has a result, and drives it. -/
theorem combineAddsOrSubtractsExactly : Obligations.CombineAddsOrSubtractsExactly := by
  unfold Obligations.CombineAddsOrSubtractsExactly
  intro s h
  obtain ⟨m, hm, hadd, hsub⟩ := combine_exact h
  exact ⟨m, exec_combine_ok hm, hadd, hsub⟩

/-- Settles O18: an underflow raises `Borrow`, with a free value on `mantissa_sum`. -/
theorem combineUnderflowRaisesBorrow : Obligations.CombineUnderflowRaisesBorrow := by
  unfold Obligations.CombineUnderflowRaisesBorrow
  intro s he hlt
  have hborrow : combine s.inp.sigL s.inp.sigR s.inp.effSub = .error .borrow := by
    rw [he, combine_borrow hlt]
  exact ⟨_, _, exec_combine_error hborrow, raise_out _ _ _, raise_fault _ _ _, raise_inp _ _ _, rfl⟩

/-! COMBINE behind ALIGN (R124, R125). -/

/-- R124: driven with the outputs of ALIGN, COMBINE drives an exact sum or difference. -/
theorem combine_after_align {s t u : State} {o : AlignOut} (ht : exec .align s = .next t) (ho : t.out = .align o)
    (hu : exec .combine (t.driveCombine o.sigL o.sigR o.effSub) = .next u) :
    ∃ (L R : FieldTriple) (m : U54), AlignedAs s.inp.alignA s.inp.alignB L R o
      ∧ u = (t.driveCombine o.sigL o.sigR o.effSub).drive (.combine ⟨m, 0⟩)
      ∧ (o.effSub = 0 → m.toNat = o.sigL.toNat + o.sigR.toNat)
      ∧ (o.effSub = 1 → m.toNat + o.sigR.toNat = o.sigL.toNat) := by
  obtain ⟨L, R, h⟩ := alignedAs_of_exec ht ho
  obtain ⟨m, hm, hadd, hsub⟩ := combine_exact (e := o.effSub) fun _ => h.sigR_le_sigL
  have hexec := exec_combine_ok (s := t.driveCombine o.sigL o.sigR o.effSub) hm
  exact ⟨L, R, m, h, Host.Outcome.next.inj (hu.symm.trans hexec), hadd, hsub⟩

/-- R124, R182: legal outputs of the top unit, read off for `Borrow`. -/
theorem OutputsLegal.top_no_borrow {t : State} {o : TopOut} (h : OutputsLegal t) (ho : t.out = .top o) :
    t.fault ≠ some .borrow ∧ o.status.getLsbD 1 = false := by
  rw [OutputsLegal, ho] at h
  match hf : t.fault with
  | none =>
    rw [hf] at h
    obtain ⟨-, -, h1⟩ := h
    exact ⟨nofun, h1⟩
  | some .zeroSum =>
    rw [hf] at h
    exact ⟨nofun, h.2⟩
  | some .borrow =>
    rw [hf] at h
    exact h.elim

theorem exec_top_no_borrow {i : Instr} (hi : i = .fadd ∨ i = .fsub) (s : State) : ∃ (t : State) (o : TopOut),
    exec i s = .next t ∧ t.out = .top o ∧ t.fault ≠ some .borrow ∧ o.status.getLsbD 1 = false := by
  obtain ⟨t, ht⟩ := exec_yields i s
  obtain ⟨o, ho⟩ : ∃ o, t.out = .top o := by
    have hunit := exec_outputsOfUnit ht
    rcases hi with rfl | rfl <;> exact hunit
  exact ⟨t, o, ht, ho, (outputsLegal_of_exec ht).top_no_borrow ho⟩

/-- Settles O19: ALIGN puts the larger significand on top, and every outcome of the top unit is legal. -/
theorem borrowUnreachableInTheTopUnit : Obligations.BorrowUnreachableInTheTopUnit := by
  unfold Obligations.BorrowUnreachableInTheTopUnit
  refine ⟨fun s t u o ht ho hu => ?_, fun s i hi => exec_top_no_borrow hi s⟩
  obtain ⟨L, R, m, -, rfl, -⟩ := combine_after_align ht ho hu
  exact drive_fault _ _

namespace AlignedAs

variable {A B L R : FieldTriple} {o : AlignOut}

theorem sigL_eq_sigR_iff_rankOf_eq (h : AlignedAs A B L R o) : o.sigL.toNat = o.sigR.toNat ↔ rankOf A = rankOf B := by
  rw [h.sigL_eq_sigR_iff, ← rankOf_eq_iff, h.rankOf_larger, h.rankOf_smaller]
  exact inf_eq_sup

/-- R103: a shift by `k` or more leaves at most `53 - k` bits. -/
theorem sigR_le_div (h : AlignedAs A B L R o) {k : Nat} (hk : k ≤ o.delta.toNat) :
    o.sigR.toNat ≤ (2 ^ 53 - 1) / 2 ^ k := by
  have hm := R.mantissa.isLt
  calc o.sigR.toNat = (R.mantissa.toNat + 2 ^ 52) / 2 ^ o.delta.toNat := h.sigR_eq_div
    _ ≤ (R.mantissa.toNat + 2 ^ 52) / 2 ^ k :=
      Nat.div_le_div_left (Nat.pow_le_pow_right two_pos hk) (Nat.two_pow_pos k)
    _ ≤ (2 ^ 53 - 1) / 2 ^ k := Nat.div_le_div_right (by omega)

theorem sigR_lt_sigL_of_one_le_delta (h : AlignedAs A B L R o) (hd : 1 ≤ o.delta.toNat) :
    o.sigR.toNat < o.sigL.toNat := by
  have hsmall := h.sigR_le_div hd
  have hlow := h.two_pow_le_sigL
  omega

/-- R125: `sig_r` is below `2 ^ 51` then. -/
theorem two_pow_add_sigR_lt_sigL (h : AlignedAs A B L R o) (hd : 2 ≤ o.delta.toNat) :
    2 ^ 51 + o.sigR.toNat < o.sigL.toNat := by
  have hsmall := h.sigR_le_div hd
  have hlow := h.two_pow_le_sigL
  omega

/-- R125: unshifted, both significands have their leading bit at bit 52. -/
theorem sigL_lt_sigR_add_two_pow (h : AlignedAs A B L R o) (hd : o.delta = 0) :
    o.sigL.toNat < o.sigR.toNat + 2 ^ 52 := by
  have hL := o.sigL.isLt
  have hkept : o.sigR.toNat = R.mantissa.toNat + 2 ^ 52 := by
    rw [h.sigR_eq_div, hd]
    exact Nat.div_one _
  omega

end AlignedAs

/-- R133: a significand of 52 bits or more needs at most one left shift. -/
theorem leftShifts_le_one {m : Nat} (h : 2 ^ 51 ≤ m) : leftShifts m ≤ 1 := by
  have hlog : 51 ≤ Nat.log2 m := (Nat.le_log2 (by omega)).2 h
  rw [leftShifts]
  split <;> omega

/-- R133: a non-zero significand below `2 ^ 52` needs a left shift. -/
theorem one_le_leftShifts {m : Nat} (h0 : m ≠ 0) (h : m < 2 ^ 52) : 1 ≤ leftShifts m := by
  have hlog : Nat.log2 m < 52 := (Nat.log2_lt h0).2 h
  rw [leftShifts, if_pos h]
  omega

/-- Settles O20: the bounds of `sig_l` and of the shifted `sig_r` give those of their sum and of their difference. -/
theorem combineRangeInsideAddition : Obligations.CombineRangeInsideAddition := by
  unfold Obligations.CombineRangeInsideAddition
  intro s t u o c ht ho hu hc
  obtain ⟨L, R, m, h, rfl, hadd, hsub⟩ := combine_after_align ht ho hu
  obtain rfl : ⟨m, 0⟩ = c := by simpa using hc
  dsimp only
  have hlow := h.two_pow_le_sigL
  have hL := o.sigL.isLt
  have hR := o.sigR.isLt
  refine ⟨fun he => ?_, fun he => ?_⟩
  · have hsum := hadd he
    omega
  have hdiff := hsub he
  have hzero : m = 0 ↔ m.toNat = 0 := (BitVec.toNat_inj (y := 0)).symm
  have hequal : m = 0 ↔ o.sigL.toNat = o.sigR.toNat := hzero.trans (by omega)
  have hfar : 2 ≤ o.delta.toNat → 2 ^ 51 < m.toNat := fun hd => by
    have := h.two_pow_add_sigR_lt_sigL hd
    omega
  refine ⟨by omega, ?_, hequal.trans h.sigL_eq_sigR_iff_rankOf_eq, hfar, fun hd => ?_,
    fun hd => leftShifts_le_one (hfar hd).le, fun hd hne => one_le_leftShifts (hzero.not.1 hne) ?_⟩
  · rw [hequal, BitVec.toNat_inj, h.sigL_eq_iff]
  · have := h.sigR_lt_sigL_of_one_le_delta hd
    omega
  · have := h.sigL_lt_sigR_add_two_pow hd
    omega

end Sys2Proof.Machine
end

