-- ==== Sys2Proof/Proofs/ExponentNormalizer.lean ====
section
/-! PROOFS. The statements about NORM (R131 to R139), from one closed form: on a non-zero significand NORM answers the
significand shifted by the counts of R132 and R133, with the exponent of R134. -/

namespace Sys2Proof.Machine

theorem expWrapOf_eq_one (e : Int) : expWrapOf e = 1 ↔ e < 0 ∨ 2047 < e := by
  have hone : expWrapOf e = 1 ↔ ¬ expWrapOf e = 0 := by
    rcases u1_cases (expWrapOf e) with h | h <;> simp [h]
  rw [hone, expWrapOf_eq_zero]
  omega

/-! The shift counts (R132, R133). -/

theorem rightShifts_of_le {m : Nat} (h : 2 ^ 53 ≤ m) : rightShifts m = 1 := if_pos h

theorem rightShifts_of_lt {m : Nat} (h : m < 2 ^ 53) : rightShifts m = 0 := if_neg h.not_ge

theorem leftShifts_of_le {m : Nat} (h : 2 ^ 52 ≤ m) : leftShifts m = 0 := if_neg h.not_gt

theorem rightShifts_le_one (m : Nat) : rightShifts m ≤ 1 := by
  rw [rightShifts]
  split <;> omega

theorem leftShifts_le (m : Nat) : leftShifts m ≤ 52 := by
  rw [leftShifts]
  split <;> omega

/-- R133: only one count brings the leading bit to bit 52. -/
theorem leftShifts_eq {m k : Nat} (hlow : 2 ^ 52 ≤ m * 2 ^ k) (hhigh : m * 2 ^ k < 2 ^ 53) : leftShifts m = k := by
  have h0 : m ≠ 0 := by
    rintro rfl
    simp at hlow
  have hbelow : 2 ^ (m.log2 + k) < 2 ^ 53 := by
    rw [pow_add]
    exact (Nat.mul_le_mul_right _ (Nat.log2_self_le h0)).trans_lt hhigh
  have habove : 2 ^ 52 < 2 ^ (m.log2 + 1 + k) := by
    rw [pow_add]
    exact hlow.trans_lt (Nat.mul_lt_mul_of_pos_right Nat.lt_log2_self (Nat.two_pow_pos k))
  have hlt := (Nat.pow_lt_pow_iff_right one_lt_two).1 hbelow
  have hgt := (Nat.pow_lt_pow_iff_right one_lt_two).1 habove
  have hcond : m < 2 ^ 52 ↔ m.log2 < 52 := (Nat.log2_lt h0).symm
  rw [leftShifts]
  split <;> omega

/-! The closed form of NORM. -/

/-- R138: the normalised significand, with its leading bit. -/
def shiftedSig (m : Nat) : Nat :=
  m / 2 ^ rightShifts m * 2 ^ leftShifts m

/-- R131 to R135: what NORM answers on a significand that is not 0. -/
theorem normalizeSig_of_ne_zero {sum : U54} (h0 : sum ≠ 0) (e : U11) :
    2 ^ 52 ≤ shiftedSig sum.toNat ∧ shiftedSig sum.toNat < 2 ^ 53
    ∧ normalizeSig sum e = .ok (normOut (shiftedSig sum.toNat) (resultExp e.toNat sum.toNat)) := by
  have hlt := sum.isLt
  rcases normalizeSig_cases sum e with ⟨h, -⟩ | ⟨h, hn⟩ | ⟨h, h', hn⟩ | ⟨k, -, -, hm, h, h', hn⟩
  · exact absurd (BitVec.eq_of_toNat_eq h) h0
  · rw [shiftedSig, resultExp, rightShifts_of_le h, leftShifts_of_le (by omega)]
    have hhalf : 2 ^ 52 ≤ sum.toNat / 2 ∧ sum.toNat / 2 < 2 ^ 53 := by omega
    simpa [hn] using hhalf
  · rw [shiftedSig, resultExp, rightShifts_of_lt h', leftShifts_of_le h]
    simpa [hn] using ⟨h, h'⟩
  · rw [shiftedSig, resultExp, rightShifts_of_lt (by omega), leftShifts_eq h h']
    simpa [hn] using ⟨h, h'⟩

variable {s t : State} {o : NormOut}

theorem exec_norm_of_ne_zero (h0 : s.inp.mantissaSum ≠ 0) :
    exec .norm s = .next (s.drive (.norm (normOut (shiftedSig s.inp.mantissaSum.toNat)
      (resultExp s.inp.expIn.toNat s.inp.mantissaSum.toNat)))) := by
  obtain ⟨-, -, hn⟩ := normalizeSig_of_ne_zero h0 s.inp.expIn
  exact exec_norm_ok hn

theorem exec_norm_of_eq_zero (h0 : s.inp.mantissaSum = 0) :
    exec .norm s = .next (s.raise .zeroSum (.norm ⟨Config.freeNormMan s.freeIndex, Config.freeNormExp s.freeIndex, 1,
      Config.freeExpWrap s.freeIndex⟩)) :=
  exec_norm_error ((normalizeSig_error_iff _ _ _).2 ⟨rfl, congrArg BitVec.toNat h0⟩)

/-- R136: NORM has a result exactly on the significands that are not 0. -/
theorem norm_fault_eq_none_iff (h : exec .norm s = .next t) : t.fault = none ↔ s.inp.mantissaSum ≠ 0 := by
  by_cases h0 : s.inp.mantissaSum = 0
  · cases (exec_norm_of_eq_zero h0).symm.trans h
    exact iff_of_false nofun (not_not.2 h0)
  · cases (exec_norm_of_ne_zero h0).symm.trans h
    exact iff_of_true rfl h0

/-- What stands on NORM's outputs when it has a result. -/
theorem normOut_of_exec (h : exec .norm s = .next t) (ho : t.out = .norm o) (hf : t.fault = none) :
    o = normOut (shiftedSig s.inp.mantissaSum.toNat) (resultExp s.inp.expIn.toNat s.inp.mantissaSum.toNat) := by
  have h0 := (norm_fault_eq_none_iff h).1 hf
  cases (exec_norm_of_ne_zero h0).symm.trans h
  exact (Outputs.norm.inj ho).symm

/-- R134, R140: the range of the unmasked exponent. -/
theorem resultExp_range (e : U11) (m : Nat) : -52 ≤ resultExp e.toNat m ∧ resultExp e.toNat m ≤ 2048 := by
  have he := e.isLt
  have hc := rightShifts_le_one m
  have hk := leftShifts_le m
  rw [resultExp]
  omega

/-- Settles O21: by the closed form, with the shift counts bounded by 1 and 52. -/
theorem normShiftsIntoRange : Obligations.NormShiftsIntoRange := by
  unfold Obligations.NormShiftsIntoRange
  rintro s m E rfl hm hE
  have h0 : s.inp.mantissaSum ≠ 0 := fun h => hm (congrArg BitVec.toNat h)
  obtain rfl : E = resultExp s.inp.expIn.toNat s.inp.mantissaSum.toNat := hE
  obtain ⟨hlow, hhigh, -⟩ := normalizeSig_of_ne_zero h0 s.inp.expIn
  refine ⟨_, exec_norm_of_ne_zero h0, ?_, maskN_toNat _, rfl, u1_cases _, expWrapOf_eq_one _, resultExp_range _ _⟩
  rw [normOut_normMan _ hlow hhigh, Nat.sub_add_cancel hlow, shiftedSig]

/-- Settles O22: the closed form covers every significand but 0, and on 0 NORM raises the fault. -/
theorem normZeroSumExactlyOnZero : Obligations.NormZeroSumExactlyOnZero := by
  unfold Obligations.NormZeroSumExactlyOnZero
  refine ⟨fun s h0 => ?_, fun s t h hf => ?_⟩
  · exact ⟨_, _, exec_norm_of_eq_zero h0, raise_out _ _ _, rfl, raise_fault _ _ _, raise_inp _ _ _, rfl⟩
  · exact not_not.1 ((norm_fault_eq_none_iff h).not.1 hf)

/-! The two loops (R131). -/

/-- R132: on 54 bits the first loop turns at most once. -/
theorem rightShiftLoop_eq {n m : Nat} (hn : 2 ≤ n) (hm : m < 2 ^ 54) (e : Int) :
    rightShiftLoop n (m, e) = (m / 2 ^ rightShifts m, e + rightShifts m) := by
  obtain ⟨n, rfl⟩ := Nat.exists_eq_add_of_le' hn
  rcases Nat.lt_or_ge m (2 ^ 53) with h | h
  · rw [rightShiftLoop, if_neg h.not_ge, rightShifts_of_lt h]
    simp
  · have hhalf : ¬ 2 ^ 53 ≤ m / 2 := by omega
    rw [rightShiftLoop, if_pos h, rightShiftLoop, if_neg hhalf, rightShifts_of_le h]
    simp

/-- R133: the second loop turns until the leading bit is at bit 52. -/
theorem leftShiftLoop_eq {n m k : Nat} (hn : k ≤ n) (hlow : 2 ^ 52 ≤ m * 2 ^ k) (hhigh : m * 2 ^ k < 2 ^ 53) (e : Int) :
    leftShiftLoop n (m, e) = (m * 2 ^ k, e - k) := by
  induction k generalizing n m e with
  | zero =>
    rw [pow_zero, mul_one] at hlow
    cases n with
    | zero => simp [leftShiftLoop]
    | succ n => rw [leftShiftLoop, if_neg hlow.not_gt]; simp
  | succ k ih =>
    obtain ⟨n, rfl⟩ := Nat.exists_eq_succ_of_ne_zero (by omega : n ≠ 0)
    have hmul : m * 2 ^ (k + 1) = m * 2 * 2 ^ k := by ring
    have hlt : m < 2 ^ 52 := by
      have := Nat.le_mul_of_pos_right (m * 2) (Nat.two_pow_pos k)
      omega
    rw [hmul] at hlow hhigh ⊢
    rw [leftShiftLoop, if_pos hlt, ih (by omega) hlow hhigh]
    push_cast
    ring_nf

/-- R131: run long enough, the loops end with what NORM takes its outputs from. -/
theorem loops_eq {n : Nat} (hn : 53 ≤ n) {sum : U54} (h0 : sum ≠ 0) (e : U11) :
    leftShiftLoop n (rightShiftLoop n (sum.toNat, (e.toNat : Int)))
      = (shiftedSig sum.toNat, resultExp e.toNat sum.toNat) := by
  obtain ⟨hlow, hhigh, -⟩ := normalizeSig_of_ne_zero h0 e
  have hk := leftShifts_le sum.toNat
  rw [rightShiftLoop_eq (by omega) sum.isLt]
  exact leftShiftLoop_eq (by omega) hlow hhigh _

theorem rightShiftLoop_zero (n : Nat) (e : Int) : rightShiftLoop n (0, e) = (0, e) := by
  cases n <;> rfl

/-- R136: on 0 every turn of the second loop lowers the exponent and leaves the significand 0. -/
theorem leftShiftLoop_zero (n : Nat) (e : Int) : leftShiftLoop n (0, e) = (0, e - n) := by
  induction n generalizing e with
  | zero => simp [leftShiftLoop]
  | succ n ih =>
    rw [leftShiftLoop, if_pos (by norm_num), zero_mul, ih]
    push_cast
    ring_nf

/-- Settles O23: the first loop performs the right shifts of the closed form and the second its left shifts; on 0 the
second never ends. -/
theorem normIsTheTwoLoops : Obligations.NormIsTheTwoLoops := by
  unfold Obligations.NormIsTheTwoLoops
  refine ⟨fun s n h0 hn => ?_, fun n E => ?_, fun s h0 => ?_⟩
  · obtain ⟨hlow, hhigh, -⟩ := normalizeSig_of_ne_zero h0 s.inp.expIn
    exact ⟨_, _, _, loops_eq hn h0 s.inp.expIn, hlow, hhigh, exec_norm_of_ne_zero h0,
      normOut_normMan _ hlow hhigh, maskN_toNat _, expWrapOf_eq_one _⟩
  · rw [rightShiftLoop_zero, leftShiftLoop_zero]
  · exact ⟨_, exec_norm_of_eq_zero h0, raise_fault _ _ _⟩

/-! What NORM preserves, and when the exponent wraps. -/

/-- R139: the right shift discards bit 0. -/
theorem div_rightShifts_mul (m : Nat) :
    m / 2 ^ rightShifts m * 2 ^ rightShifts m = m - (if 2 ^ 53 ≤ m then m % 2 else 0) := by
  rw [rightShifts]
  split <;> omega

/-- R139: each shift of the significand is made good by its turn of the exponent. -/
theorem shiftedSig_mul_zpow (e m : Nat) :
    (shiftedSig m : Rat) * 2 ^ (resultExp e m - 1075)
      = ((m / 2 ^ rightShifts m * 2 ^ rightShifts m : Nat) : Rat) * 2 ^ ((e : Int) - 1075) := by
  have hexp : resultExp e m - 1075 = ((e : Int) - 1075) + rightShifts m - leftShifts m := by
    rw [resultExp]
    ring
  rw [hexp, shiftedSig, zpow_sub₀ two_ne_zero, zpow_add₀ two_ne_zero]
  push_cast
  rw [zpow_natCast, zpow_natCast]
  field_simp

/-- Settles O24: the normalised significand with its exponent has the value of the sum without the discarded bit. -/
theorem normPreservesTheValue : Obligations.NormPreservesTheValue := by
  unfold Obligations.NormPreservesTheValue
  rintro s t o m h ho hf rfl
  obtain ⟨hlow, hhigh, -⟩ := normalizeSig_of_ne_zero ((norm_fault_eq_none_iff h).1 hf) s.inp.expIn
  have hman : (o.normMan.toNat : Rat) + 2 ^ (52 : Nat) = shiftedSig s.inp.mantissaSum.toNat := by
    rw [normOut_of_exec h ho hf, normOut_normMan _ hlow hhigh]
    exact_mod_cast Nat.sub_add_cancel hlow
  rw [hman, shiftedSig_mul_zpow, div_rightShifts_mul]

/-- R137: a carry is the only way over 2047, and a left shift the only way below 0. -/
theorem resultExp_wraps_iff (e : U11) (m : Nat) :
    resultExp e.toNat m < 0 ∨ 2047 < resultExp e.toNat m ↔
      (e.toNat = 2047 ∧ 2 ^ 53 ≤ m) ∨ e.toNat < leftShifts m := by
  have he := e.isLt
  rcases Nat.lt_or_ge m (2 ^ 53) with h | h
  · rw [resultExp, rightShifts_of_lt h]
    omega
  · rw [resultExp, rightShifts_of_le h, leftShifts_of_le (by omega)]
    omega

/-- Settles O25: `exp_wrap` is 1 when the exponent leaves its range, at either end. -/
theorem normWrapOnlyAtTheEnds : Obligations.NormWrapOnlyAtTheEnds := by
  unfold Obligations.NormWrapOnlyAtTheEnds
  rintro s t o m h ho hf rfl
  rw [normOut_of_exec h ho hf, normOut_expWrap, expWrapOf_eq_one, resultExp_wraps_iff]

end Sys2Proof.Machine
end

