-- ==== Sys2Proof/Proofs/Addition.lean ====
section
/-! PROOFS. The addition of two triples in closed form: of the ordered operands (R101), the combined significand (R121)
shifted into range (R138) with the exponent of R134; from it, what exchanging and negating the operands does. -/

namespace Sys2Proof.Machine

variable {A B L R : FieldTriple} {r : SumResult} {m : Nat}

/-! The ordered operands (R101). -/

theorem exists_ordered (A B : FieldTriple) : ∃ L R, Ordered A B L R := by
  by_cases h : rankOf A < rankOf B
  · exact ⟨B, A, by simp [Ordered, h]⟩
  · exact ⟨A, B, by simp [Ordered, h]⟩

namespace Ordered

/-- The two ways of ordering; on a tie the first operand counts as the larger. -/
theorem cases (h : Ordered A B L R) :
    (rankOf A < rankOf B ∧ L = B ∧ R = A) ∨ (rankOf B ≤ rankOf A ∧ L = A ∧ R = B) := by
  rw [Ordered] at h
  split at h
  next hlt => exact .inl ⟨hlt, h⟩
  next hle => exact .inr ⟨not_lt.1 hle, h⟩

theorem of_le (h : rankOf B ≤ rankOf A) : Ordered A B A B := by
  simp [Ordered, not_lt.2 h]

theorem rankOf_le (h : Ordered A B L R) : rankOf R ≤ rankOf L := by
  obtain ⟨hlt, rfl, rfl⟩ | ⟨hle, rfl, rfl⟩ := h.cases
  · exact hlt.le
  · exact hle

theorem exponent_le (h : Ordered A B L R) : R.exponent.toNat ≤ L.exponent.toNat := by
  have hrank := h.rankOf_le
  have hL := L.mantissa.isLt
  simp only [rankOf] at hrank
  omega

/-- What is symmetric in the two operands holds of the ordered ones. -/
theorem field_eq_iff {α : Type} (field : FieldTriple → α) (h : Ordered A B L R) :
    field L = field R ↔ field A = field B := by
  obtain ⟨-, rfl, rfl⟩ | ⟨-, rfl, rfl⟩ := h.cases
  · exact eq_comm
  · exact Iff.rfl

/-- Off a tie the order of presentation does not matter. -/
theorem swap_operands (h : Ordered A B L R) (hne : rankOf A ≠ rankOf B) : Ordered B A L R := by
  obtain ⟨hlt, rfl, rfl⟩ | ⟨hle, rfl, rfl⟩ := h.cases
  · exact of_le hlt.le
  · simp [Ordered, lt_of_le_of_ne hle hne.symm]

/-- The signs take no part in the order. -/
theorem negate_operands (h : Ordered A B L R) : Ordered (negate A) (negate B) (negate L) (negate R) := by
  have hrank : ∀ f, rankOf (negate f) = rankOf f := fun _ => rfl
  obtain ⟨hlt, rfl, rfl⟩ | ⟨hle, rfl, rfl⟩ := h.cases
  · simp [Ordered, hrank, hlt]
  · exact of_le (by rwa [hrank, hrank])

end Ordered

theorem AlignedAs.ordered {o : AlignOut} (h : AlignedAs A B L R o) : Ordered A B L R := by
  by_cases hlt : rankOf A < rankOf B
  · simpa [Ordered, hlt] using h.operands_of_swap_eq_one (h.swap_eq_one_iff.2 hlt)
  · simpa [Ordered, hlt] using h.operands_of_swap_eq_zero (h.swap_eq_zero_iff.2 (not_lt.1 hlt))

/-- The ordered operands are determined by the two operands. -/
theorem Ordered.unique {L' R' : FieldTriple} (h : Ordered A B L R) (h' : Ordered A B L' R') : L' = L ∧ R' = R := by
  obtain ⟨hlt, rfl, rfl⟩ | ⟨hle, rfl, rfl⟩ := h.cases
  · simpa [Ordered, hlt] using h'
  · simpa [Ordered, not_lt.2 hle] using h'

/-! The combined significand (R121). -/

theorem combinedSig_lt (L R : FieldTriple) : combinedSig L R < 2 ^ 54 := by
  have hL := L.mantissa.isLt
  have hR := R.mantissa.isLt
  have hle : alignedSig L R ≤ R.mantissa.toNat + 2 ^ 52 := Nat.div_le_self _ _
  rw [combinedSig]
  split <;> omega

theorem combinedSig_negate (L R : FieldTriple) : combinedSig (negate L) (negate R) = combinedSig L R := by
  have hsign : (negate L).sign = (negate R).sign ↔ L.sign = R.sign := by
    simp [negate]
  simp only [combinedSig, hsign]
  rfl

/-! The closed form. -/

/-- The fields and the `exp_wrap` of an addition with the larger operand `L` and the combined significand `m` (R152). -/
def roundSum (L : FieldTriple) (m : Nat) : SumResult :=
  let n := normOut (shiftedSig m) (resultExp L.exponent.toNat m)
  (⟨L.sign, n.normExp, n.normMan⟩, n.expWrap)

@[simp] theorem roundSum_sign (L : FieldTriple) (m : Nat) : (roundSum L m).1.sign = L.sign := rfl
@[simp] theorem roundSum_exponent (L : FieldTriple) (m : Nat) :
    (roundSum L m).1.exponent = maskN 11 (resultExp L.exponent.toNat m) := rfl
@[simp] theorem roundSum_expWrap (L : FieldTriple) (m : Nat) :
    (roundSum L m).2 = expWrapOf (resultExp L.exponent.toNat m) := rfl
@[simp] theorem roundSum_negate (L : FieldTriple) (m : Nat) :
    roundSum (negate L) m = (negate (roundSum L m).1, (roundSum L m).2) := rfl

/-- R138: the significand NORM leaves is in the normalised range. -/
theorem shiftedSig_range (h0 : m ≠ 0) (hm : m < 2 ^ 54) : 2 ^ 52 ≤ shiftedSig m ∧ shiftedSig m < 2 ^ 53 := by
  have hne : BitVec.ofNatLT m hm ≠ 0 := fun h => h0 (congrArg BitVec.toNat h)
  obtain ⟨hlow, hhigh, -⟩ := normalizeSig_of_ne_zero hne 0
  exact ⟨hlow, hhigh⟩

theorem roundSum_mantissa_toNat (L : FieldTriple) (h0 : m ≠ 0) (hm : m < 2 ^ 54) :
    (roundSum L m).1.mantissa.toNat + 2 ^ 52 = shiftedSig m := by
  obtain ⟨hlow, hhigh⟩ := shiftedSig_range h0 hm
  have hman : (roundSum L m).1.mantissa.toNat = shiftedSig m - 2 ^ 52 := by
    rw [roundSum, normOut_normMan _ hlow hhigh]
  omega

/-- R150, R152: an addition is its ordered operands combined, and rounded unless they cancel. -/
theorem addFields_of_ordered (h : Ordered A B L R) :
    addFields A B = if combinedSig L R = 0 then .error .zeroSum else .ok (roundSum L (combinedSig L R)) := by
  obtain ⟨L', R', o, hal, sum, hadd, hsub, heq⟩ := addFields_spec A B
  obtain ⟨rfl, rfl⟩ := h.unique hal.ordered
  have hsum : sum.toNat = combinedSig L' R' := by
    rw [combinedSig, alignedSig, ← hal.sigL, ← hal.sigR]
    split
    next hs => exact hadd hs
    next hs => exact hsub hs
  rw [heq, ← hsum]
  by_cases h0 : sum.toNat = 0
  · rw [(normalizeSig_error_iff sum L'.exponent .zeroSum).2 ⟨rfl, h0⟩, if_pos h0]
  · have hne : sum ≠ 0 := fun h => h0 (congrArg BitVec.toNat h)
    obtain ⟨-, -, hn⟩ := normalizeSig_of_ne_zero hne L'.exponent
    rw [hn, if_neg h0]
    rfl

/-- What an addition with a result computes. -/
theorem addFields_ok (h : addFields A B = .ok r) :
    ∃ L R, Ordered A B L R ∧ combinedSig L R ≠ 0 ∧ r = roundSum L (combinedSig L R) := by
  obtain ⟨L, R, hord⟩ := exists_ordered A B
  rw [addFields_of_ordered hord] at h
  split at h
  next => cases h
  next h0 => exact ⟨L, R, hord, h0, (Except.ok.inj h).symm⟩

/-! Exchanging and negating the operands (R158, R161). -/

theorem addFields_comm (A B : FieldTriple) : addFields B A = addFields A B := by
  by_cases hne : rankOf A = rankOf B
  · obtain ⟨hexp, hman⟩ := (rankOf_eq_iff A B).1 hne
    by_cases hs : A.sign = B.sign
    · rw [FieldTriple.ext hs hexp hman]
    · rw [(addFields_error_iff A B .zeroSum).2 ⟨rfl, hexp, hman, hs⟩]
      exact (addFields_error_iff B A .zeroSum).2 ⟨rfl, hexp.symm, hman.symm, Ne.symm hs⟩
  · obtain ⟨L, R, h⟩ := exists_ordered A B
    rw [addFields_of_ordered h, addFields_of_ordered (h.swap_operands hne)]

theorem addFields_negate_of_ok (h : addFields A B = .ok r) :
    addFields (negate A) (negate B) = .ok (negate r.1, r.2) := by
  obtain ⟨L, R, hord, h0, rfl⟩ := addFields_ok h
  rw [addFields_of_ordered hord.negate_operands, combinedSig_negate, if_neg h0, roundSum_negate]

/-! The result as a pattern (R152). -/

theorem getLsbD_zero_iff (x : U1) : x.getLsbD 0 = true ↔ x = 1 := by
  rcases u1_cases x with rfl | rfl <;> decide

theorem statusOf_wrap_iff (e : Int) :
    (statusOf (expWrapOf e) 0 0).getLsbD 2 = true ↔ e < 0 ∨ 2047 < e := by
  obtain ⟨-, -, hwrap⟩ := statusOf_bits (expWrapOf e) 0 0
  rw [hwrap, getLsbD_zero_iff, expWrapOf_eq_one]

theorem additionResult_of_ok (h : addFields A B = .ok r) :
    AdditionResult A B (reassemble r.1) (statusOf r.2 0 0) := by
  obtain ⟨L, R, hord, h0, rfl⟩ := addFields_ok h
  obtain ⟨hzeroSum, hborrow, -⟩ := statusOf_bits (roundSum L (combinedSig L R)).2 0 0
  refine ⟨L, R, hord, h0, ?_, hzeroSum, hborrow, statusOf_wrap_iff _⟩
  have hman := roundSum_mantissa_toNat L h0 (combinedSig_lt L R)
  rw [← shiftedSig, ← hman, reassemble_toNat, ← maskN_toNat, roundSum_sign, roundSum_exponent]
  push_cast
  ring

/-! Two special cases: equal operands, and a second operand that the alignment shifts out (R105). -/

/-- The result of an addition from its normalised significand. -/
theorem roundSum_eq {M : U52} (hsig : shiftedSig m = M.toNat + 2 ^ 52) :
    roundSum L m =
      (⟨L.sign, maskN 11 (resultExp L.exponent.toNat m), M⟩, expWrapOf (resultExp L.exponent.toNat m)) := by
  have hM := M.isLt
  have hman : (normOut (shiftedSig m) (resultExp L.exponent.toNat m)).normMan = M := by
    apply BitVec.eq_of_toNat_eq
    have hnat := normOut_normMan (s := shiftedSig m) (resultExp L.exponent.toNat m) (by omega) (by omega)
    omega
  rw [roundSum, hman]
  rfl

/-- R152: the sum of a pattern's significand with itself carries, and the carry makes the exponent 1 more. -/
theorem addFields_self (A : FieldTriple) : addFields A A =
    .ok (⟨A.sign, A.exponent + 1, A.mantissa⟩, expWrapOf (A.exponent.toNat + 1)) := by
  have hm := A.mantissa.isLt
  have hsum : combinedSig A A = 2 * (A.mantissa.toNat + 2 ^ 52) := by
    simp [combinedSig, alignedSig]
    omega
  have hright : rightShifts (combinedSig A A) = 1 := rightShifts_of_le (by omega)
  have hleft : leftShifts (combinedSig A A) = 0 := leftShifts_of_le (by omega)
  have hmask : maskN 11 ((A.exponent.toNat : Int) + 1) = A.exponent + 1 := by
    simp [maskN, BitVec.ofInt_add]
  have hexp : resultExp A.exponent.toNat (combinedSig A A) = A.exponent.toNat + 1 := by
    simp [resultExp, hright, hleft]
  have hsig : shiftedSig (combinedSig A A) = A.mantissa.toNat + 2 ^ 52 := by
    rw [shiftedSig, hright, hleft, hsum]
    omega
  rw [addFields_of_ordered (Ordered.of_le le_rfl), if_neg (by omega), roundSum_eq hsig, hexp, hmask]

/-- R131: a significand with its leading bit at bit 52 is left alone. -/
theorem roundSum_normalised (L : FieldTriple) : roundSum L (L.mantissa.toNat + 2 ^ 52) = (L, 0) := by
  have hm := L.mantissa.isLt
  have he := L.exponent.isLt
  have hright : rightShifts (L.mantissa.toNat + 2 ^ 52) = 0 := rightShifts_of_lt (by omega)
  have hleft : leftShifts (L.mantissa.toNat + 2 ^ 52) = 0 := leftShifts_of_le (by omega)
  have hexp : resultExp L.exponent.toNat (L.mantissa.toNat + 2 ^ 52) = L.exponent.toNat := by
    rw [resultExp, hright, hleft]
    omega
  have hsig : shiftedSig (L.mantissa.toNat + 2 ^ 52) = L.mantissa.toNat + 2 ^ 52 := by
    rw [shiftedSig, hright, hleft, pow_zero, Nat.div_one, mul_one]
  have hmask : maskN 11 (L.exponent.toNat : Int) = L.exponent := by
    simp [maskN]
  rw [roundSum_eq hsig, hexp, hmask, (expWrapOf_eq_zero L.exponent.toNat).2 (by omega)]

/-- R105: the smaller significand is shifted out. -/
theorem addFields_of_far (h : B.exponent.toNat + 53 ≤ A.exponent.toNat) : addFields A B = .ok (A, 0) := by
  have hB := B.mantissa.isLt
  have hrank : rankOf B ≤ rankOf A := ((rankOf_lt_iff B A).2 (.inl (by omega))).le
  have haligned : alignedSig A B = 0 := Nat.div_eq_of_lt <| calc
    B.mantissa.toNat + 2 ^ 52 < 2 ^ 53 := by omega
    _ ≤ 2 ^ (A.exponent.toNat - B.exponent.toNat) := Nat.pow_le_pow_right two_pos (by omega)
  have hsum : combinedSig A B = A.mantissa.toNat + 2 ^ 52 := by
    rw [combinedSig, haligned, Nat.add_zero, Nat.sub_zero, ite_self]
  rw [addFields_of_ordered (Ordered.of_le hrank), hsum, if_neg (by omega), roundSum_normalised]

end Sys2Proof.Machine
end

