-- ==== Sys2Proof/Proofs/AdditionValue.lean ====
section
/-! PROOFS. The exact value of a sum (R159), in units of the last place of the larger operand: what the alignment and
the normalisation lose of it. -/

namespace Sys2Proof.Machine

variable {A B L R : FieldTriple} {m : Nat}

/-- The value of an addition's result without a wrap. -/
theorem abs_val_roundSum (h0 : m ≠ 0) (hm : m < 2 ^ 54) (hw : (roundSum L m).2 = 0) :
    |val (roundSum L m).1| = (shiftedSig m : Rat) * 2 ^ (resultExp L.exponent.toNat m - 1075) := by
  rw [roundSum_expWrap, expWrapOf_eq_zero] at hw
  have hexp : ((roundSum L m).1.exponent.toNat : Int) = resultExp L.exponent.toNat m := by
    rw [roundSum_exponent, maskN_toNat]
    omega
  rw [abs_val, roundSum_mantissa_toNat L h0 hm, hexp]

namespace Ordered

theorem alignedSig_le (h : Ordered A B L R) : alignedSig L R ≤ L.mantissa.toNat + 2 ^ 52 := by
  obtain ⟨L', R', hal⟩ := align_spec A B
  obtain ⟨rfl, rfl⟩ := h.unique hal.ordered
  have hle := hal.sigR_le_sigL
  rwa [hal.sigL, hal.sigR] at hle

theorem eq_of_alignedSig_eq (h : Ordered A B L R) (he : alignedSig L R = L.mantissa.toNat + 2 ^ 52) :
    R.exponent = L.exponent ∧ R.mantissa = L.mantissa := by
  obtain ⟨L', R', hal⟩ := align_spec A B
  obtain ⟨rfl, rfl⟩ := h.unique hal.ordered
  refine hal.sigL_eq_sigR_iff.1 ?_
  rw [hal.sigL, hal.sigR]
  exact he.symm

/-- R107: the aligned significand is the smaller operand's value, truncated to units of the larger operand. -/
theorem alignedSig_bracket (h : Ordered A B L R) :
    (alignedSig L R : Rat) * 2 ^ ((L.exponent.toNat : Int) - 1075) ≤ |val R|
    ∧ |val R| < ((alignedSig L R : Rat) + 1) * 2 ^ ((L.exponent.toNat : Int) - 1075) := by
  have hexp := h.exponent_le
  have hunit : (2 : Rat) ^ ((L.exponent.toNat : Int) - 1075)
      = ((2 ^ (L.exponent.toNat - R.exponent.toNat) : Nat) : Rat) * 2 ^ ((R.exponent.toNat : Int) - 1075) := by
    rw [Nat.cast_pow, Nat.cast_ofNat, ← zpow_natCast, ← zpow_add₀ two_ne_zero]
    congr 1
    omega
  have hlow : alignedSig L R * 2 ^ (L.exponent.toNat - R.exponent.toNat) ≤ R.mantissa.toNat + 2 ^ 52 :=
    Nat.div_mul_le_self _ _
  have hhigh : R.mantissa.toNat + 2 ^ 52 < (alignedSig L R + 1) * 2 ^ (L.exponent.toNat - R.exponent.toNat) :=
    Nat.lt_mul_of_div_lt (Nat.lt_add_one _) (Nat.two_pow_pos _)
  rw [abs_val, hunit, ← mul_assoc, ← mul_assoc]
  constructor
  · gcongr
    exact_mod_cast hlow
  · gcongr
    exact_mod_cast hhigh

/-- R107: nothing is shifted out at equal exponents. -/
theorem alignedSig_exact (he : L.exponent = R.exponent) :
    |val R| = (alignedSig L R : Rat) * 2 ^ ((L.exponent.toNat : Int) - 1075) := by
  rw [abs_val, alignedSig, he, Nat.sub_self, pow_zero, Nat.div_one]

/-- R101: the order by rank is the order by absolute value. -/
theorem abs_val_le (h : Ordered A B L R) : |val R| ≤ |val L| := by
  rcases h.alignedSig_le.eq_or_lt with heq | hlt
  · obtain ⟨hexp, hman⟩ := h.eq_of_alignedSig_eq heq
    rw [abs_val, abs_val, hexp, hman]
  · obtain ⟨-, hhigh⟩ := h.alignedSig_bracket
    refine hhigh.le.trans ?_
    rw [abs_val]
    gcongr
    exact_mod_cast hlt

theorem abs_val_add (h : Ordered A B L R) : |val A| + |val B| = |val L| + |val R| := by
  obtain ⟨-, rfl, rfl⟩ | ⟨-, rfl, rfl⟩ := h.cases
  · exact add_comm _ _
  · rfl

theorem eq_right_of_abs_val_lt (h : Ordered A B L R) (hlt : |val A| < |val B|) : L = B := by
  have hle := h.abs_val_le
  obtain ⟨-, rfl, rfl⟩ | ⟨-, rfl, rfl⟩ := h.cases
  · rfl
  · exact absurd hlt hle.not_gt

theorem eq_left_of_abs_val_lt (h : Ordered A B L R) (hlt : |val B| < |val A|) : L = A := by
  have hle := h.abs_val_le
  obtain ⟨-, rfl, rfl⟩ | ⟨-, rfl, rfl⟩ := h.cases
  · exact absurd hlt hle.not_gt
  · rfl

theorem largerAbs_eq (h : Ordered A B L R) : largerAbs A B = |val L| := by
  have hle := h.abs_val_le
  obtain ⟨-, rfl, rfl⟩ | ⟨-, rfl, rfl⟩ := h.cases
  · exact max_eq_right hle
  · exact max_eq_left hle

theorem smallerAbs_eq (h : Ordered A B L R) : smallerAbs A B = |val R| := by
  have hle := h.abs_val_le
  obtain ⟨-, rfl, rfl⟩ | ⟨-, rfl, rfl⟩ := h.cases
  · exact min_eq_left hle
  · exact min_eq_right hle

theorem ulpOf_eq (h : Ordered A B L R) : ulpOf A B = 2 ^ ((L.exponent.toNat : Int) - 1075) := by
  have hle := h.exponent_le
  obtain ⟨-, rfl, rfl⟩ | ⟨-, rfl, rfl⟩ := h.cases
  · rw [ulpOf, max_eq_right hle]
  · rw [ulpOf, max_eq_left hle]

/-- R159: with equal signs the combined significand is the exact sum, truncated to units of the larger operand. -/
theorem combinedSig_bracket_add (h : Ordered A B L R) (hs : L.sign = R.sign) :
    (combinedSig L R : Rat) * 2 ^ ((L.exponent.toNat : Int) - 1075) ≤ |val L| + |val R|
    ∧ |val L| + |val R| < ((combinedSig L R : Rat) + 1) * 2 ^ ((L.exponent.toNat : Int) - 1075) := by
  obtain ⟨hlow, hhigh⟩ := h.alignedSig_bracket
  rw [combinedSig, if_pos hs, abs_val L, Nat.cast_add _ (alignedSig L R)]
  constructor <;> linarith

/-- R159: with different signs the combined significand is the exact difference, rounded up to units of the larger
operand, because what is subtracted is truncated. -/
theorem combinedSig_bracket_sub (h : Ordered A B L R) (hs : L.sign ≠ R.sign) :
    |val L| - |val R| ≤ (combinedSig L R : Rat) * 2 ^ ((L.exponent.toNat : Int) - 1075)
    ∧ ((combinedSig L R : Rat) - 1) * 2 ^ ((L.exponent.toNat : Int) - 1075) < |val L| - |val R| := by
  obtain ⟨hlow, hhigh⟩ := h.alignedSig_bracket
  rw [combinedSig, if_neg hs, abs_val L, Nat.cast_sub h.alignedSig_le]
  constructor <;> linarith

theorem combinedSig_exact_sub (h : Ordered A B L R) (hs : L.sign ≠ R.sign) (he : L.exponent = R.exponent) :
    (combinedSig L R : Rat) * 2 ^ ((L.exponent.toNat : Int) - 1075) = |val L| - |val R| := by
  rw [combinedSig, if_neg hs, abs_val L, alignedSig_exact he, Nat.cast_sub h.alignedSig_le, sub_mul]

end Ordered

/-! The rounding of the combined significand (R139, R159). -/

/-- R132: a sum needs no left shift, so the rounded significand has the larger operand's unit, doubled on a carry. -/
theorem zpow_resultExp_of_le (e : Nat) (hm : 2 ^ 52 ≤ m) :
    (2 : Rat) ^ (resultExp e m - 1075) = ((2 ^ rightShifts m : Nat) : Rat) * 2 ^ ((e : Int) - 1075) := by
  rw [Nat.cast_pow, Nat.cast_ofNat, ← zpow_natCast, ← zpow_add₀ two_ne_zero, resultExp, leftShifts_of_le hm]
  congr 1
  omega

/-- R139: the right shift truncates. -/
theorem shiftedSig_bracket (hm : 2 ^ 52 ≤ m) :
    shiftedSig m * 2 ^ rightShifts m ≤ m ∧ m + 1 ≤ (shiftedSig m + 1) * 2 ^ rightShifts m := by
  rw [shiftedSig, leftShifts_of_le hm, pow_zero, mul_one]
  exact ⟨Nat.div_mul_le_self _ _, Nat.lt_mul_of_div_lt (Nat.lt_add_one _) (Nat.two_pow_pos _)⟩

/-- R139: a significand without a carry is normalised without a loss. -/
theorem shiftedSig_mul_zpow_of_lt (e : Nat) (hm : m < 2 ^ 53) :
    (shiftedSig m : Rat) * 2 ^ (resultExp e m - 1075) = (m : Rat) * 2 ^ ((e : Int) - 1075) := by
  rw [shiftedSig_mul_zpow, rightShifts_of_lt hm, pow_zero, Nat.div_one, mul_one]

end Sys2Proof.Machine
end

