-- ==== Sys2Proof/Proofs/FpAdderSubtractor.lean ====
section
/-! PROOFS. The statements about the top unit (R150 to R162), from the closed form of the addition and from what each
operation evaluates. -/

namespace Sys2Proof.Machine

variable {i : Instr} {s t u : State} {A B L R : FieldTriple} {a b : BitPattern} {r : SumResult} {m : Nat}

/-! What stands in the state after an evaluation, and after FADD or FSUB. -/

/-- An evaluation with a result leaves no fault and drives it. -/
theorem exec_outcome {o : Outputs} (h : exec i s = .next t) (he : evaluate i s.inp = .ok o) :
    t.fault = none ∧ t.out = o := by
  cases (exec_of_ok he).symm.trans h
  exact ⟨rfl, rfl⟩

/-- What an operation with a result drives stands on its outputs. -/
theorem out_of_exec {o o' : Outputs} (h : exec i s = .next t) (ho : t.out = o') (he : evaluate i s.inp = .ok o) :
    o = o' := by
  obtain ⟨-, hout⟩ := exec_outcome h he
  exact hout.symm.trans ho

theorem evaluate_of_exec (h : exec i s = .next t) (hf : t.fault = none) : evaluate i s.inp = .ok t.out := by
  rw [← result_of_exec h, State.result, hf]

theorem fault_of_exec {f : Fault} (h : exec i s = .next t) (he : evaluate i s.inp = .error f) : t.fault = some f := by
  obtain ⟨o, -, hx⟩ := exec_of_error he
  cases hx.symm.trans h
  rfl

/-- R151 step 7: the outputs of the top unit for an addition's result. -/
def sumTop (r : SumResult) : TopOut :=
  topResult (reassemble r.1) (statusOf r.2 0 0)

/-- R162: the ports `y_sign`, `y_exp` and `y_man` carry the fields of `y`. -/
@[simp] theorem topResult_fields (y : BitPattern) (st : U3) : (topResult y st).fields = decompose y := rfl

@[simp] theorem sumTop_y (r : SumResult) : (sumTop r).y = reassemble r.1 := rfl
@[simp] theorem sumTop_status (r : SumResult) : (sumTop r).status = statusOf r.2 0 0 := rfl
@[simp] theorem sumTop_fields (r : SumResult) : (sumTop r).fields = r.1 :=
  decompose_reassemble r.1
@[simp] theorem sumTop_ySign (r : SumResult) : (sumTop r).ySign = r.1.sign :=
  congrArg FieldTriple.sign (sumTop_fields r)
@[simp] theorem sumTop_yExp (r : SumResult) : (sumTop r).yExp = r.1.exponent :=
  congrArg FieldTriple.exponent (sumTop_fields r)
@[simp] theorem sumTop_yMan (r : SumResult) : (sumTop r).yMan = r.1.mantissa :=
  congrArg FieldTriple.mantissa (sumTop_fields r)

theorem evaluate_fadd_of_ok {x : Inputs} (h : addFields (decompose x.a) (decompose x.b) = .ok r) :
    evaluate .fadd x = .ok (.top (sumTop r)) :=
  map_eq_ok.2 ⟨r, h, rfl⟩

theorem evaluate_fsub_of_ok {x : Inputs} (h : addFields (decompose x.a) (negate (decompose x.b)) = .ok r) :
    evaluate .fsub x = .ok (.top (sumTop r)) :=
  map_eq_ok.2 ⟨r, h, rfl⟩

/-- The outputs of an addition's operation that leaves no fault. -/
theorem fadd_of_exec {o : TopOut} (h : exec .fadd s = .next t) (ho : t.out = .top o) (hf : t.fault = none) :
    ∃ r, addFields (decompose s.inp.a) (decompose s.inp.b) = .ok r ∧ o = sumTop r := by
  obtain ⟨r, hr, hout⟩ := map_eq_ok.1 (evaluate_of_exec h hf)
  exact ⟨r, hr, Outputs.top.inj (ho.symm.trans hout.symm)⟩

theorem fsub_of_exec {o : TopOut} (h : exec .fsub s = .next t) (ho : t.out = .top o) (hf : t.fault = none) :
    ∃ r, addFields (decompose s.inp.a) (negate (decompose s.inp.b)) = .ok r ∧ o = sumTop r := by
  obtain ⟨r, hr, hout⟩ := map_eq_ok.1 (evaluate_of_exec h hf)
  exact ⟨r, hr, Outputs.top.inj (ho.symm.trans hout.symm)⟩

/-- FADD or FSUB leaves no fault and the addition's outputs where the addition has a result. -/
theorem top_outcome {o : TopOut} (h : exec i s = .next t) (ho : t.out = .top o)
    (he : evaluate i s.inp = .ok (.top (sumTop r))) : t.fault = none ∧ o = sumTop r := by
  obtain ⟨hf, -⟩ := exec_outcome h he
  exact ⟨hf, (Outputs.top.inj (out_of_exec h ho he)).symm⟩

/-! FNEG and FCMPEQ (R154, R155). -/

/-- Settles O30: inverting bit 63 negates the fields, and with them the value. -/
theorem fnegInvertsBit63 : Obligations.FnegInvertsBit63 := by
  unfold Obligations.FnegInvertsBit63
  intro s
  have hfields : (topResult (s.inp.a ^^^ 0x8000000000000000#64) 0).fields = negate (decompose s.inp.a) :=
    decompose_flip s.inp.a
  exact ⟨_, exec_fneg s, topResult_y _ _, hfields, topResult_fields _ _, topResult_status _ _,
    by rw [hfields, val_negate]⟩

/-- Settles O31: the truth value on `y` is that of equality of the two patterns. -/
theorem fcmpeqIsBitIdentity : Obligations.FcmpeqIsBitIdentity := by
  unfold Obligations.FcmpeqIsBitIdentity
  intro s
  refine ⟨_, exec_fcmpeq s, fun h => ?_, fun h => ?_, topResult_fields _ _, topResult_status _ _⟩
  · rw [topResult_y, decide_eq_true h]
    rfl
  · rw [topResult_y, decide_eq_false h]
    rfl

/-! When FADD and FSUB have a result (R182), and what it is (R152, R153). -/

theorem addFields_eq_ok (h : rankOf A = rankOf B → A.sign = B.sign) : ∃ r, addFields A B = .ok r := by
  cases hr : addFields A B with
  | ok r => exact ⟨r, rfl⟩
  | error f =>
    obtain ⟨-, hexp, hman, hsign⟩ := (addFields_error_iff A B f).1 hr
    exact absurd (h ((rankOf_eq_iff A B).2 ⟨hexp, hman⟩)) hsign

theorem magnitude_eq_rankOf (p : BitPattern) : magnitude p = rankOf (decompose p) := by
  simp only [magnitude, rankOf, decompose_exponent_toNat, decompose_mantissa_toNat]
  omega

theorem getLsbD_63 (p : BitPattern) : p.getLsbD 63 = (decompose p).sign.getLsbD 0 := by
  simp [decompose]

theorem cancels_iff (a b : BitPattern) :
    cancels a b ↔ rankOf (decompose a) = rankOf (decompose b) ∧ (decompose a).sign ≠ (decompose b).sign := by
  rw [cancels, magnitude_eq_rankOf, magnitude_eq_rankOf, getLsbD_63, getLsbD_63]
  rcases u1_cases (decompose a).sign with h | h <;> rcases u1_cases (decompose b).sign with h' | h' <;> simp [h, h']

/-- R51: a pattern is its rank and its sign. -/
theorem eq_of_rankOf_of_sign (hrank : rankOf (decompose a) = rankOf (decompose b))
    (hsign : (decompose a).sign = (decompose b).sign) : a = b := by
  obtain ⟨hexp, hman⟩ := (rankOf_eq_iff _ _).1 hrank
  rw [← reassemble_decompose a, FieldTriple.ext hsign hexp hman, reassemble_decompose]

/-- Settles O26: operands that do not cancel have a sum, and its pattern and status are those of the closed form. -/
theorem faddIsTruncatingFieldAddition : Obligations.FaddIsTruncatingFieldAddition := by
  unfold Obligations.FaddIsTruncatingFieldAddition
  intro s h
  rw [cancels_iff] at h
  obtain ⟨r, hr⟩ := addFields_eq_ok fun hrank => not_not.1 fun hsign => h ⟨hrank, hsign⟩
  exact ⟨sumTop r, exec_of_ok (evaluate_fadd_of_ok hr), additionResult_of_ok hr, rfl⟩

theorem sign_eq_sign_negate (h : A.sign ≠ B.sign) : A.sign = (negate B).sign := by
  have hne : A.sign.toNat ≠ B.sign.toNat := BitVec.toNat_inj.not.2 h
  have hA := A.sign.isLt
  have hB := B.sign.isLt
  apply BitVec.eq_of_toNat_eq
  rw [negate_sign_toNat]
  omega

/-- Settles O27: a pattern and the negation of a different one do not cancel. -/
theorem fsubIsTruncatingFieldSubtraction : Obligations.FsubIsTruncatingFieldSubtraction := by
  unfold Obligations.FsubIsTruncatingFieldSubtraction
  intro s h
  obtain ⟨r, hr⟩ : ∃ r, addFields (decompose s.inp.a) (negate (decompose s.inp.b)) = .ok r :=
    addFields_eq_ok fun hrank => sign_eq_sign_negate fun hsign => h (eq_of_rankOf_of_sign hrank hsign)
  exact ⟨sumTop r, exec_of_ok (evaluate_fsub_of_ok hr), additionResult_of_ok hr, rfl⟩

/-! The top unit as the wiring of the inner units (R150). -/

/-- R150: where COMBINE has a result, the addition is NORM of it. -/
theorem addFields_of_combine {c : CombineOut}
    (hc : combine (align A B).sigL (align A B).sigR (align A B).effSub = .ok c) :
    addFields A B = (normalizeSig c.mantissaSum (align A B).resExp).map
      fun n => (⟨(align A B).resSign, n.normExp, n.normMan⟩, n.expWrap) := by
  rw [addFields, hc]
  dsimp only
  cases normalizeSig c.mantissaSum (align A B).resExp <;> rfl

/-- R152, R153: what FADD, or FSUB, of two patterns evaluates. -/
theorem evaluate_addition (s : State) (sub : Bool) (a b : BitPattern) :
    evaluate (if sub then .fsub else .fadd) (s.driveTop (if sub then 0b01 else 0b00) a b).inp
      = (addFields (decompose a) (if sub then negate (decompose b) else decompose b)).map
          fun r => .top (sumTop r) := by
  cases sub <;> rfl

/-- Settles O29: each unit drives what the next one reads, COMBINE has a result behind ALIGN, and FADD and FSUB end as
NORM does. -/
theorem topUnitIsTheWiringOfTheUnits : Obligations.TopUnitIsTheWiringOfTheUnits := by
  unfold Obligations.TopUnitIsTheWiringOfTheUnits
  intro s a b sub t1 t2 t3 t4 t5 t6 t7 t8 A B0 B1 al c n p o h1 o1 h2 o2 h3 o3 h4 o4 h5 o5 h6 o6 h7 o7 h8 o8
  obtain rfl : decompose a = A := Outputs.decomp.inj (out_of_exec h1 o1 rfl)
  obtain rfl : decompose b = B0 := Outputs.decomp.inj (out_of_exec h2 o2 rfl)
  obtain rfl : negate (decompose b) = B1 := Outputs.negf.inj (out_of_exec h3 o3 rfl)
  have hadd := evaluate_addition t7 sub a b
  generalize (if sub then negate (decompose b) else decompose b) = B at h4 hadd
  obtain rfl : align (decompose a) B = al := Outputs.align.inj (out_of_exec h4 o4 rfl)
  obtain ⟨-, -, m, -, rfl, -⟩ := combine_after_align h4 o4 h5
  obtain rfl : ⟨m, 0⟩ = c := Outputs.combine.inj o5
  obtain ⟨c, hc, hcm⟩ := map_eq_ok.1 (evaluate_of_exec h5 rfl)
  obtain rfl : c = ⟨m, 0⟩ := Outputs.combine.inj hcm
  rw [addFields_of_combine hc] at hadd
  refine ⟨rfl, ?_⟩
  cases hn : normalizeSig m (align (decompose a) B).resExp with
  | error f =>
    have hf6 : t6.fault = some f := fault_of_exec h6 (map_eq_error.2 hn)
    have hf8 : t8.fault = some f := fault_of_exec h8 (by rw [hadd, hn]; rfl)
    exact ⟨hf8.trans hf6.symm, fun h => nomatch hf6.symm.trans h⟩
  | ok n' =>
    obtain ⟨hf6, hout6⟩ := exec_outcome h6 (map_eq_ok.2 ⟨n', hn, rfl⟩)
    obtain rfl : n' = n := Outputs.norm.inj (hout6.symm.trans o6)
    obtain ⟨hf8, rfl⟩ := top_outcome h8 o8
      (r := (⟨(align (decompose a) B).resSign, n'.normExp, n'.normMan⟩, n'.expWrap)) (by rw [hadd, hn]; rfl)
    obtain rfl := Outputs.reasm.inj (out_of_exec h7 o7 rfl)
    refine ⟨hf8.trans hf6.symm, fun _ => ⟨rfl, sumTop_fields _, ?_⟩⟩
    rw [sumTop_status, normalizeSig_ok_zeroSum hn]
    rfl

/-! The laws of addition and subtraction (R153, R157, R158, R161). -/

/-- Settles O32: negating the second operand's pattern negates its fields. -/
theorem fsubIsFaddOfFneg : Obligations.FsubIsFaddOfFneg := by
  unfold Obligations.FsubIsFaddOfFneg
  intro s t u v a b x o ht ho hu hv
  obtain rfl := Outputs.top.inj (out_of_exec ht ho rfl)
  rw [result_of_exec hv, result_of_exec hu]
  simp only [evaluate, driveTop_inp, topResult_y, decompose_flip]

theorem fadd_result_comm (h : exec .fadd (s.driveTop 0b00 a b) = .next t)
    (h' : exec .fadd (s.driveTop 0b00 b a) = .next u) : u.result = t.result := by
  rw [result_of_exec h', result_of_exec h]
  exact congrArg (Except.map sumOutputs) (addFields_comm (decompose a) (decompose b))

/-- FADD of two patterns with a sum answers a state with that result. -/
theorem exists_exec_fadd (s : State) (op : U2) (h : addFields (decompose a) (decompose b) = .ok r) :
    ∃ t, exec .fadd (s.driveTop op a b) = .next t ∧ t.result = .ok (.top (sumTop r)) :=
  ⟨_, exec_of_ok (evaluate_fadd_of_ok h), rfl⟩

/-- Settles O33: the closed form does not depend on the order of the operands. The three patterns of the counterexample
are 1, 2^-53 and 2^-53: each of the two is absorbed by 1, and their sum is not. -/
theorem faddIsCommutativeNotAssociative : Obligations.FaddIsCommutativeNotAssociative := by
  unfold Obligations.FaddIsCommutativeNotAssociative
  refine ⟨fun s t u a b h h' => fadd_result_comm h h', fun s => ?_⟩
  have hone : addFields (decompose 0x3FF0000000000000) (decompose 0x3CA0000000000000) = .ok (⟨0, 1023, 0⟩, 0) := by
    decide
  have htwice : addFields (decompose 0x3CA0000000000000) (decompose 0x3CA0000000000000) = .ok (⟨0, 971, 0⟩, 0) := by
    decide
  have hnext : addFields (decompose 0x3FF0000000000000) (decompose 0x3CB0000000000000) = .ok (⟨0, 1023, 1⟩, 0) := by
    decide
  have hback : (sumTop (⟨0, 1023, 0⟩, 0)).y = 0x3FF0000000000000 := by decide
  have hsum : (sumTop (⟨0, 971, 0⟩, 0)).y = 0x3CB0000000000000 := by decide
  obtain ⟨t, ht, hrt⟩ := exists_exec_fadd s 0b00 hone
  obtain ⟨u, hu, hru⟩ := exists_exec_fadd t 0b00 hone
  obtain ⟨v, hv, hrv⟩ := exists_exec_fadd u 0b00 htwice
  obtain ⟨w, hw, hrw⟩ := exists_exec_fadd v 0b00 hnext
  exact ⟨_, _, _, t, u, v, w, _, _, _, _, ht, hrt, hback ▸ hu, hru, hv, hrv, hsum ▸ hw, hrw, by decide⟩

/-- R161: where an addition has a result, that of the negated operands is the negated one. -/
theorem sumTop_negate_y (r : SumResult) : (sumTop (negate r.1, r.2)).y = (sumTop r).y ^^^ 0x8000000000000000#64 := by
  rw [sumTop_y, sumTop_y, ← reassemble_negate_decompose, decompose_reassemble]

theorem sumTop_negate_status (r : SumResult) : (sumTop (negate r.1, r.2)).status = (sumTop r).status := by
  rw [sumTop_status, sumTop_status]

/-- Settles O34: the order, the combined significand and its rounding do not look at the signs, except whether they
agree. -/
theorem negatingOperandsNegatesTheSum : Obligations.NegatingOperandsNegatesTheSum := by
  unfold Obligations.NegatingOperandsNegatesTheSum
  constructor
  · intro s t u a x o p ht ho hu hp
    obtain rfl := Outputs.top.inj (out_of_exec ht ho rfl)
    obtain rfl := Outputs.top.inj (out_of_exec hu hp rfl)
    simp only [driveTop_inp, topResult_y, topResult_ySign, topResult_yExp, topResult_yMan, decompose_flip,
      BitVec.xor_assoc, BitVec.xor_self, BitVec.xor_zero]
    exact ⟨trivial, negate_sign_ne _, negate_exponent _, negate_mantissa _⟩
  · intro s t u a b o p ht ho hf hu hp
    obtain ⟨r, hr, rfl⟩ := fadd_of_exec ht ho hf
    have hneg : addFields (decompose (a ^^^ 0x8000000000000000#64)) (decompose (b ^^^ 0x8000000000000000#64))
        = .ok (negate r.1, r.2) := by
      rw [decompose_flip, decompose_flip]
      exact addFields_negate_of_ok hr
    obtain ⟨hfu, rfl⟩ := top_outcome hu hp (evaluate_fadd_of_ok hneg)
    exact ⟨hfu, sumTop_negate_y r, sumTop_negate_status r⟩

/-- Settles O35: `b - a` is `-a + b`, the negation of `a - b`. -/
theorem fsubIsAntisymmetric : Obligations.FsubIsAntisymmetric := by
  unfold Obligations.FsubIsAntisymmetric
  intro s t u a b o p ht ho hf hu hp
  obtain ⟨r, hr, rfl⟩ := fsub_of_exec ht ho hf
  have hneg : addFields (decompose b) (negate (decompose a)) = .ok (negate r.1, r.2) := by
    rw [addFields_comm, ← negate_negate (decompose b)]
    exact addFields_negate_of_ok hr
  obtain ⟨hfu, rfl⟩ := top_outcome hu hp (evaluate_fsub_of_ok hneg)
  exact ⟨hfu, sumTop_negate_y r, sumTop_negate_status r⟩

/-! The corner cases of R152: equal operands, and operands far apart. -/

/-- Settles O38: the sum of two equal operands has their sign and mantissa, and an exponent that is 1 more. -/
theorem faddOfEqualOperandsDoubles : Obligations.FaddOfEqualOperandsDoubles := by
  unfold Obligations.FaddOfEqualOperandsDoubles
  intro s a
  have hself := addFields_self (decompose a)
  have he := (decompose a).exponent.isLt
  refine ⟨_, _, exec_of_ok (evaluate_fadd_of_ok hself), drive_out _ _, drive_fault _ _,
    sumTop_ySign _, sumTop_yMan _, sumTop_yExp _, ?_⟩
  rw [sumTop_status, statusOf_wrap_iff]
  omega

/-- The result of an addition that is a pattern's fields without a wrap. -/
theorem top_outcome_of_fields {o : TopOut} {f : FieldTriple} (h : exec i s = .next t) (ho : t.out = .top o)
    (he : evaluate i s.inp = .ok (.top (sumTop (f, 0)))) : t.fault = none ∧ o.y = reassemble f ∧ o.status = 0 := by
  obtain ⟨hf, rfl⟩ := top_outcome h ho he
  exact ⟨hf, rfl, (statusOf_eq_zero 0).2 rfl⟩

/-- Settles O39: the larger operand's fields are the result, in either order of the operands. -/
theorem farSmallerOperandIsAbsorbed : Obligations.FarSmallerOperandIsAbsorbed := by
  unfold Obligations.FarSmallerOperandIsAbsorbed
  intro s t u o p ht ho hu hp
  refine ⟨fun hfar => ?_, fun hfar => ?_⟩
  · have hadd := addFields_of_far hfar
    have hsub := addFields_of_far (B := negate (decompose s.inp.b)) hfar
    obtain ⟨hft, hy, hst⟩ := top_outcome_of_fields ht ho (evaluate_fadd_of_ok hadd)
    obtain ⟨hfu, hy', hst'⟩ := top_outcome_of_fields hu hp (evaluate_fsub_of_ok hsub)
    rw [reassemble_decompose] at hy hy'
    exact ⟨hft, hy, hst, hfu, hy', hst'⟩
  · have hadd := (addFields_comm _ _).trans (addFields_of_far hfar)
    have hsub := (addFields_comm _ _).trans (addFields_of_far (A := negate (decompose s.inp.b)) hfar)
    obtain ⟨hft, hy, hst⟩ := top_outcome_of_fields ht ho (evaluate_fadd_of_ok hadd)
    obtain ⟨hfu, hy', hst'⟩ := top_outcome_of_fields hu hp (evaluate_fsub_of_ok hsub)
    rw [reassemble_decompose] at hy
    rw [reassemble_negate_decompose] at hy'
    exact ⟨hft, hy, hst, hfu, hy', hst'⟩

/-! The rounding of a sum without a wrap (R159). -/

/-- What FADD without a fault and without a wrap leaves on its outputs, in terms of the ordered operands. -/
theorem fadd_value_of_exec {o : TopOut} (h : exec .fadd s = .next t) (ho : t.out = .top o) (hf : t.fault = none)
    (hst : o.status = 0) : ∃ L R, Ordered (decompose s.inp.a) (decompose s.inp.b) L R ∧ combinedSig L R ≠ 0
      ∧ o.ySign = L.sign
      ∧ |val (decompose o.y)| = (shiftedSig (combinedSig L R) : Rat)
          * 2 ^ (resultExp L.exponent.toNat (combinedSig L R) - 1075) := by
  obtain ⟨r, hr, rfl⟩ := fadd_of_exec h ho hf
  obtain ⟨L, R, hord, h0, rfl⟩ := addFields_ok hr
  refine ⟨L, R, hord, h0, sumTop_ySign _, ?_⟩
  rw [sumTop_y, decompose_reassemble]
  exact abs_val_roundSum h0 (combinedSig_lt L R) ((statusOf_eq_zero _).1 hst)

/-- Settles O36: the alignment truncates the sum to units of the larger operand, and a carry truncates it once more. -/
theorem sameSignSumTruncatesTo53Bits : Obligations.SameSignSumTruncatesTo53Bits := by
  unfold Obligations.SameSignSumTruncatesTo53Bits
  rintro s t o A B rfl rfl h ho hf hst hs
  obtain ⟨L, R, hord, h0, hsign, hval⟩ := fadd_value_of_exec h ho hf hst
  have hLR := (hord.field_eq_iff (·.sign)).2 hs
  have hm : 2 ^ 52 ≤ combinedSig L R := by
    rw [combinedSig, if_pos hLR]
    omega
  obtain ⟨hlow, hhigh⟩ := hord.combinedSig_bracket_add hLR
  obtain ⟨htrunc, hnext⟩ := shiftedSig_bracket hm
  obtain ⟨hmin, hmax⟩ := shiftedSig_range h0 (combinedSig_lt L R)
  refine ⟨_, _, hmin, hmax, hval, ?_, ?_, ?_⟩
  · rw [hord.abs_val_add, zpow_resultExp_of_le _ hm, ← mul_assoc]
    refine le_trans ?_ hlow
    gcongr
    exact_mod_cast htrunc
  · rw [hord.abs_val_add, zpow_resultExp_of_le _ hm, ← mul_assoc]
    refine hhigh.trans_le ?_
    gcongr
    exact_mod_cast hnext
  · obtain ⟨-, rfl, -⟩ | ⟨-, rfl, -⟩ := hord.cases
    · exact hsign.trans hs.symm
    · exact hsign

/-- Settles O37: what the alignment truncates is subtracted, and a difference has no carry to truncate. -/
theorem differentSignSumRoundsUpToAUnit : Obligations.DifferentSignSumRoundsUpToAUnit := by
  unfold Obligations.DifferentSignSumRoundsUpToAUnit
  rintro s t o A B rfl rfl h ho hf hst hs
  obtain ⟨L, R, hord, h0, hsign, hval⟩ := fadd_value_of_exec h ho hf hst
  have hLR : L.sign ≠ R.sign := (hord.field_eq_iff (·.sign)).not.2 hs
  have hm : combinedSig L R < 2 ^ 53 := by
    have hL := L.mantissa.isLt
    rw [combinedSig, if_neg hLR]
    omega
  rw [shiftedSig_mul_zpow_of_lt _ hm] at hval
  obtain ⟨hup, hnext⟩ := hord.combinedSig_bracket_sub hLR
  rw [hord.largerAbs_eq, hord.smallerAbs_eq, hord.ulpOf_eq]
  exact ⟨combinedSig L R, hval, hup, hnext,
    fun he => hval.trans (hord.combinedSig_exact_sub hLR ((hord.field_eq_iff (·.exponent)).2 he)),
    fun hlt => hord.eq_right_of_abs_val_lt hlt ▸ hsign, fun hlt => hord.eq_left_of_abs_val_lt hlt ▸ hsign⟩

end Sys2Proof.Machine
end

