-- ==== Sys2Proof/Proofs/Exceptions.lean ====
section
/-! PROOFS. The fault of the top unit (R180 to R182): which operands raise it, and what stands in the state then. -/

namespace Sys2Proof.Machine

variable {i : Instr} {s t : State} {x : Inputs} {f : Fault}

/-! The operands that cancel. -/

/-- R182: equal low 63 bits and opposite signs are the pattern with bit 63 inverted. -/
theorem cancels_iff_eq_flip (a b : BitPattern) : cancels a b ↔ b = a ^^^ 0x8000000000000000#64 := by
  rw [cancels_iff]
  constructor
  · rintro ⟨hrank, hsign⟩
    apply eq_of_rankOf_of_sign <;> rw [decompose_flip]
    · exact hrank.symm
    · exact sign_eq_sign_negate hsign.symm
  · rintro rfl
    rw [decompose_flip]
    exact ⟨rfl, (negate_sign_ne _).symm⟩

theorem cancels_flip_iff (a b : BitPattern) : cancels a (b ^^^ 0x8000000000000000#64) ↔ a = b := by
  rw [cancels_iff_eq_flip, BitVec.xor_left_inj]
  exact eq_comm

/-- R182: `ZeroSum` is the only fault of an addition of patterns. -/
theorem addFields_decompose_error_iff (a b : BitPattern) (f : Fault) :
    addFields (decompose a) (decompose b) = .error f ↔ f = .zeroSum ∧ cancels a b := by
  rw [addFields_error_iff, cancels_iff, rankOf_eq_iff, and_assoc]

theorem evaluate_fadd_error_iff : evaluate .fadd x = .error f ↔ f = .zeroSum ∧ cancels x.a x.b :=
  map_eq_error.trans (addFields_decompose_error_iff x.a x.b f)

/-- FSUB adds the second operand with bit 63 inverted (R153). -/
theorem evaluate_fsub_error_iff : evaluate .fsub x = .error f ↔ f = .zeroSum ∧ x.a = x.b := by
  rw [← cancels_flip_iff, ← addFields_decompose_error_iff, decompose_flip]
  exact map_eq_error

/-! The state after a fault. -/

/-- A recorded fault is one that the evaluation raised. -/
theorem evaluate_eq_error_of_fault (h : exec i s = .next t) (hf : t.fault ≠ none) :
    ∃ f, evaluate i s.inp = .error f := by
  rcases exec_cases h with ⟨o, -, rfl⟩ | ⟨f, -, he, -, -⟩
  · exact absurd (drive_fault s o) hf
  · exact ⟨f, he⟩

/-- R181: what an addition that raises `ZeroSum` leaves in the state. The two specified bits of `status` are those of
legal outputs. -/
theorem exec_of_zeroSum (hi : i = .fadd ∨ i = .fsub) (he : evaluate i s.inp = .error .zeroSum) :
    ∃ (t : State) (o : TopOut), exec i s = .next t ∧ t.out = .top o ∧ t.fault = some .zeroSum
      ∧ t.result = .error .zeroSum ∧ t.inp = s.inp ∧ o.status.getLsbD 0 = true ∧ o.status.getLsbD 1 = false := by
  obtain ⟨outs, ho, hx⟩ := exec_of_error he
  obtain ⟨o, rfl⟩ : ∃ o, outs = .top o := by
    rcases hi with rfl | rfl <;> exact ho.outputsOfUnit
  exact ⟨_, o, hx, raise_out _ _ _, raise_fault _ _ _, (result_of_exec hx).trans he, raise_inp _ _ _,
    outputsLegal_of_exec hx⟩

/-- Settles O28: FADD and FSUB fault exactly where the addition does, and FNEG and FCMPEQ always have a result. -/
theorem zeroSumExactlyOnCancellation : Obligations.ZeroSumExactlyOnCancellation := by
  unfold Obligations.ZeroSumExactlyOnCancellation
  refine ⟨fun s h => exec_of_zeroSum (.inl rfl) (evaluate_fadd_error_iff.2 ⟨rfl, h⟩),
    fun s h => exec_of_zeroSum (.inr rfl) (evaluate_fsub_error_iff.2 ⟨rfl, h⟩), cancels_iff_eq_flip, ?_, ?_, ?_⟩
  · intro s t h hf
    obtain ⟨f, he⟩ := evaluate_eq_error_of_fault h hf
    exact (evaluate_fadd_error_iff.1 he).2
  · intro s t h hf
    obtain ⟨f, he⟩ := evaluate_eq_error_of_fault h hf
    exact (evaluate_fsub_error_iff.1 he).2
  · rintro s t i (rfl | rfl) h <;> exact (exec_outcome h rfl).1

end Sys2Proof.Machine
end

