-- ==== Sys2Proof/Proofs/ResetAndHazards.lean ====
section
/-! PROOFS. The statements about what a caller may rely on (R202 to R207): every evaluation has an outcome, FCMPEQ tells
the fault of FSUB in advance, and normalised operands wrap the exponent only by a cancellation. -/

namespace Sys2Proof.Machine

variable {i : Instr} {s t : State} {A B L R : FieldTriple} {f : Fault} {m : Nat}

/-- Settles O42: a step is an operation, and every operation answers a next state. -/
theorem everyEvaluationYieldsAnOutcome : Obligations.EveryEvaluationYieldsAnOutcome := by
  unfold Obligations.EveryEvaluationYieldsAnOutcome
  exact ⟨exec_yields, fun s => exec_yields s.selected s⟩

/-! FCMPEQ before FSUB (R204). -/

/-- R181: the fault in the next state is that of the evaluation. -/
theorem fault_eq_some_iff (h : exec i s = .next t) : t.fault = some f ↔ evaluate i s.inp = .error f := by
  refine ⟨fun hf => ?_, fault_of_exec h⟩
  rw [← result_of_exec h, State.result, hf]

theorem fsub_fault_eq_some_iff (h : exec .fsub s = .next t) :
    t.fault = some f ↔ f = .zeroSum ∧ s.inp.a = s.inp.b :=
  (fault_eq_some_iff h).trans evaluate_fsub_error_iff

/-- R155: what FCMPEQ leaves on `y`. -/
theorem fcmpeq_y_of_exec {o : TopOut} (h : exec .fcmpeq s = .next t) (ho : t.out = .top o) :
    (s.inp.a = s.inp.b → o.y = 1) ∧ (s.inp.a ≠ s.inp.b → o.y = 0) := by
  obtain ⟨o', hx, heq, hne, -⟩ := fcmpeqIsBitIdentity s
  cases hx.symm.trans h
  cases Outputs.top.inj ho
  exact ⟨heq, hne⟩

/-- Settles O41: equality of the two patterns decides both what FCMPEQ answers and whether FSUB faults. -/
theorem fcmpeqPredictsTheFaultOfFsub : Obligations.FcmpeqPredictsTheFaultOfFsub := by
  unfold Obligations.FcmpeqPredictsTheFaultOfFsub
  intro s t u a b o ht ho hu
  obtain ⟨hone, hzero⟩ := fcmpeq_y_of_exec ht ho
  by_cases hab : a = b
  · have hfault : u.fault = some .zeroSum := (fsub_fault_eq_some_iff hu).2 ⟨rfl, hab⟩
    simp [hone hab, hfault]
  · have hfault : u.fault = none := Option.eq_none_iff_forall_ne_some.2 fun f hf =>
      hab ((fsub_fault_eq_some_iff hu).1 hf).2
    simp [hzero hab, hfault]

/-! The wrap of the exponent (R137, R207). -/

/-- R121: a sum keeps the leading bit of the larger operand. -/
theorem two_pow_le_combinedSig (hs : L.sign = R.sign) : 2 ^ 52 ≤ combinedSig L R := by
  rw [combinedSig, if_pos hs]
  omega

/-- R134: from an exponent of at most 2046 a carry does not pass 2047, so a wrap is below 0. -/
theorem resultExp_neg_of_wraps {e : Nat} (he : e ≤ 2046) (hw : resultExp e m < 0 ∨ 2047 < resultExp e m) :
    resultExp e m < 0 := by
  have hc := rightShifts_le_one m
  rw [resultExp] at hw ⊢
  omega

/-- R134: only a left shift brings the exponent below 0. -/
theorem lt_leftShifts_of_resultExp_neg {e : Nat} (h : resultExp e m < 0) : e < leftShifts m := by
  rw [resultExp] at h
  omega

/-- R134: an exponent of -52 to -1 is masked to 1996 to 2047. -/
theorem le_maskN_of_neg {E : Int} (hlow : -52 ≤ E) (hneg : E < 0) : 1996 ≤ (maskN 11 E).toNat := by
  have hmask := maskN_toNat E
  omega

/-- R101: the larger operand has the larger exponent. -/
theorem Ordered.exponent_eq_max (h : Ordered A B L R) :
    L.exponent.toNat = max A.exponent.toNat B.exponent.toNat := by
  have hle := h.exponent_le
  obtain ⟨-, rfl, rfl⟩ | ⟨-, rfl, rfl⟩ := h.cases
  · exact (max_eq_right hle).symm
  · exact (max_eq_left hle).symm

/-- Settles O40: the larger exponent is at most 2046, so the wrap is below 0; that takes more left shifts than the
larger exponent, of which there are at most 52 and, after a sum, none. -/
theorem normalisedOperandsWrapOnlyByCancellation : Obligations.NormalisedOperandsWrapOnlyByCancellation := by
  unfold Obligations.NormalisedOperandsWrapOnlyByCancellation
  rintro s t o ⟨-, ha⟩ ⟨-, hb⟩ h ho hf hwrap
  obtain ⟨r, hr, rfl⟩ := fadd_of_exec h ho hf
  obtain ⟨L, R, hord, -, rfl⟩ := addFields_ok hr
  have hmax := hord.exponent_eq_max
  have hneg : resultExp L.exponent.toNat (combinedSig L R) < 0 :=
    resultExp_neg_of_wraps (by omega) ((statusOf_wrap_iff _).1 hwrap)
  have hshift := lt_leftShifts_of_resultExp_neg hneg
  have hmost := leftShifts_le (combinedSig L R)
  refine ⟨fun hs => ?_, ?_, by omega, by omega⟩
  · rw [leftShifts_of_le (two_pow_le_combinedSig ((hord.field_eq_iff (·.sign)).2 hs))] at hshift
    exact Nat.not_lt_zero _ hshift
  · rw [sumTop_yExp, roundSum_exponent]
    obtain ⟨hlow, -⟩ := resultExp_range L.exponent (combinedSig L R)
    exact le_maskN_of_neg hlow hneg

end Sys2Proof.Machine
end
